-- ==== Sys2Proof/Word.lean ====
section
/-! DEFINITION. The word: the content of one memory cell, one input value, one output value or one operand.
It is a signed integer (spec/00_scope.md R7, spec/20_memory.md R50, R51) and the spec never looks at its bits ("no value is ever
narrowed, widened or sliced in bits", R13), so its type is `Int`, written so everywhere. Which integers are words of a
build is the range of its width, below; that every value the machine holds is in that range is part of the invariant
`Machine.State.Inv`. DESIGN CHOICE, log 2. -/

namespace Sys2Proof

/-- The parameter W of R7: a number of bits, or W = infinity (unbounded mathematical integers). -/
inductive Width where
  | bits (n : Nat)
  | unbounded
deriving DecidableEq, Repr

/-- R7 asks W >= 16, and admits W = infinity. -/
def Width.supported : Width → Bool
  | .bits n => decide (16 ≤ n)
  | .unbounded => true

/-- WMIN = -2^(W-1) and WMAX = 2^(W-1) - 1 (R7): is `v` a value a word of this width can hold?
With W = infinity every integer is. -/
def Width.fits : Width → Int → Bool
  | .bits n, v => decide (-(2 ^ (n - 1) : Int) ≤ v ∧ v ≤ 2 ^ (n - 1) - 1)
  | .unbounded, _ => true

end Sys2Proof
end

