-- ==== Sys2Proof/Config.lean ====
section
/-! DEFINITION. What a build of the hardware fixes: the word width W (spec/00_scope.md R7).
The other parameters of R10 are no choices of a build: the two policies OVERFLOW = fault and
OUTCAP = unbounded are fixed by the spec (logs 7 and 12) and are what `checkedResult` and `emit` do.
The spec leaves no value free, so there is no free value here. -/

namespace Sys2Proof

/-- The recommended default W = 64 (R7, decision D1). DESIGN CHOICE, log 1: only `State.reset` and the
reading of opcode-table words use it; every other definition takes the width from the state. -/
def Config.defaultBits : Nat := 64

end Sys2Proof
end

