-- ==== Sys2Proof/Syntax.lean ====
section
/-! DEFINITION. The instructions as the decimal fields of their instruction word (spec/30_encoding.md R81, R84),
the instruction descriptors (R93) and the assembler's lines (R105). -/

namespace Sys2Proof

/-- One decimal digit of an instruction word (R11, R81). -/
abbrev Digit := Fin 10

/-- "an enumeration {Position, Immediate}" (R88). -/
inductive Mode where
  | position
  | immediate
deriving DecidableEq, Repr

/-- An instruction: every digit field of its instruction word, by the formats of R84. `m0` and `m1` are the
mode digits of source parameters, of any value 0 to 9 (2 to 9 fault when the parameter is reached, R100, R115,
so they are instructions, not decoding errors). `d` is a destination's digit and `x` all the digits above the
last parameter's; neither is ever examined (R89, R101), and both are kept so that no digit of the word is lost.
The parameter cells are not part of it: they are read from memory one by one while the instruction executes
(R110 line 5), because a fault of an earlier parameter hides those of a later one. Log 22. -/
inductive Instr where
  /-- ADD, format T (R131): word `x d m1 m0 01`. -/
  | add (m0 m1 d : Digit) (x : Nat)
  /-- MUL, format T (R132): word `x d m1 m0 02`. -/
  | mul (m0 m1 d : Digit) (x : Nat)
  /-- IN, format Ui (R142): word `x d 03`. -/
  | inp (d : Digit) (x : Nat)
  /-- OUT, format Uo (R145): word `x m0 04`. -/
  | out (m0 : Digit) (x : Nat)
  /-- HALT, format Z (R150): word `x 99`. -/
  | halt (x : Nat)
deriving DecidableEq, Repr

/-- Which handler a descriptor names (R93, R94). -/
inductive Handler where
  | add
  | mul
  | input
  | output
deriving DecidableEq, Repr

/-- An instruction descriptor: "{opcode: byte, parameter_count: byte, write_parameter_indices: set of byte,
handler}" (R93). -/
structure Descriptor where
  opcode : Nat
  parameterCount : Nat
  writeParameterIndices : List Nat
  handler : Handler
deriving DecidableEq, Repr

/-- A source operand of the assembler (R105): `[a]` (Position) or `#v` (Immediate). -/
inductive Source where
  | pos (a : Int)
  | imm (v : Int)
deriving DecidableEq, Repr

/-- A line of the assembler (R105); `d` is the destination `@d`. DESIGN CHOICE of the spec (D12), log 23. -/
inductive AsmLine where
  | add (s0 s1 : Source) (d : Int)
  | mul (s0 s1 : Source) (d : Int)
  | inp (d : Int)
  | out (s0 : Source)
  | halt
  | data (v : Int)
deriving DecidableEq, Repr

end Sys2Proof
end

