-- ==== Sys2Proof/Decode.lean ====
section
/-! DEFINITION. The decoder of instruction words (spec/30_encoding.md R81 to R104), the instruction set table ISET
(R93 to R96), the encoder, the assembler (R105 to R107) and the reading of an opcode-table word. -/

namespace Sys2Proof

/-! ### Decimal fields -/

/-- Digit `k` of `w`: `(w div 10^k) mod 10`, digit 0 the units digit (spec/00_scope.md R11). -/
def digit (w k : Nat) : Digit := Fin.ofNat 10 (w / 10 ^ k)

/-- "`DecodeOpcode(word) -> opcode`: `word mod 100`" (R83). -/
def decodeOpcode (w : Nat) : Nat := w % 100

/-- The mode a mode digit stands for: 0 Position, 1 Immediate, no mode for 2 to 9 (R87, R88). -/
def modeOfDigit (d : Digit) : Option Mode :=
  match d.val with
  | 0 => some .position
  | 1 => some .immediate
  | _ => none

/-- `DecodeParameterMode(w, i)` (R87): the mode of digit `i + 2`, `none` where it raises InvalidParameterMode. -/
def decodeParameterMode (w i : Nat) : Option Mode := modeOfDigit (digit w (i + 2))

/-! ### The instruction set table -/

/-- ADD: opcode 1, three parameters, write index {2} (R94). -/
def addDescriptor : Descriptor := ⟨1, 3, [2], .add⟩
/-- MUL: opcode 2, three parameters, write index {2} (R94). -/
def mulDescriptor : Descriptor := ⟨2, 3, [2], .mul⟩
/-- IN: opcode 3, one parameter, write index {0} (R94). -/
def inDescriptor : Descriptor := ⟨3, 1, [0], .input⟩
/-- OUT: opcode 4, one parameter, no writes (R94). -/
def outDescriptor : Descriptor := ⟨4, 1, [], .output⟩

/-- ISET, the whole instruction set table as one constant (spec/00_scope.md R9, R94; decision D4, log 15). -/
def iset : List Descriptor := [addDescriptor, mulDescriptor, inDescriptor, outDescriptor]

/-- The halt sentinel, reserved and never mapped in the table (R96, spec/43_halt.md R151). -/
def haltOpcode : Nat := 99

/-- `Lookup(op)`: the descriptor of ISET whose opcode is `op`, or none (R95). -/
def lookup (op : Nat) : Option Descriptor := iset.find? (fun d => d.opcode == op)

/-! ### Decoding -/

/-- Why a word is no instruction: both end in the fault UnknownOpcode of the step (R82, R98). -/
inductive DecodeError where
  /-- the word is negative (R82; decision D3, log 8) -/
  | negativeWord
  /-- the opcode is not 99 and has no descriptor (R98) -/
  | unregisteredOpcode (op : Nat)
deriving DecidableEq, Repr

/-- The digit fields of `w` by the format of the descriptor's handler (R84). -/
def fieldsOf (h : Handler) (w : Nat) : Instr :=
  match h with
  | .add => .add (digit w 2) (digit w 3) (digit w 4) (w / 100000)
  | .mul => .mul (digit w 2) (digit w 3) (digit w 4) (w / 100000)
  | .input => .inp (digit w 2) (w / 1000)
  | .output => .out (digit w 2) (w / 1000)

/-- The decoder, total on every word (R104), with the tests in the order of spec/40_step_cycle.md R112: negative word,
halt sentinel, table lookup. Mode digits are not examined here. -/
def decode (w : Int) : Except DecodeError Instr :=
  if w < 0 then .error .negativeWord
  else if decodeOpcode w.toNat = haltOpcode then .ok (.halt (w.toNat / 100))
  else
    match lookup (decodeOpcode w.toNat) with
    | none => .error (.unregisteredOpcode (decodeOpcode w.toNat))
    | some d => .ok (fieldsOf d.handler w.toNat)

/-! ### Encoding -/

/-- The opcode of an instruction (R94). -/
def Instr.opcode : Instr → Nat
  | .add _ _ _ _ => 1
  | .mul _ _ _ _ => 2
  | .inp _ _ => 3
  | .out _ _ => 4
  | .halt _ => 99

/-- The instruction word of an instruction, from the digit places of R81 and R84. -/
def encodeNat : Instr → Nat
  | .add m0 m1 d x => 1 + 100 * m0.val + 1000 * m1.val + 10000 * d.val + 100000 * x
  | .mul m0 m1 d x => 2 + 100 * m0.val + 1000 * m1.val + 10000 * d.val + 100000 * x
  | .inp d x => 3 + 100 * d.val + 1000 * x
  | .out m0 x => 4 + 100 * m0.val + 1000 * x
  | .halt x => 99 + 100 * x

/-- The instruction word as the word a cell holds; it is never negative. -/
def encode (i : Instr) : Int := (encodeNat i : Int)

/-- How many cells an instruction occupies, "`parameter_count + 1`, including the opcode word itself"
(R80, R85): from its descriptor, and 1 for HALT, which has none. -/
def Instr.length (i : Instr) : Nat :=
  match lookup i.opcode with
  | some d => d.parameterCount + 1
  | none => 1

/-! ### The assembler -/

/-- `m([a]) = 0`, `m(#v) = 1` (R107). -/
def Source.modeDigit : Source → Digit
  | .pos _ => 0
  | .imm _ => 1

/-- `c([a]) = a`, `c(#v) = v` (R107). -/
def Source.cell : Source → Int
  | .pos a => a
  | .imm v => v

/-- One line becomes consecutive cells, with 0 in every unexamined digit (R103, R107). -/
def assembleLine : AsmLine → List Int
  | .add s0 s1 d => [1 + 100 * s0.modeDigit.val + 1000 * s1.modeDigit.val, s0.cell, s1.cell, d]
  | .mul s0 s1 d => [2 + 100 * s0.modeDigit.val + 1000 * s1.modeDigit.val, s0.cell, s1.cell, d]
  | .inp d => [3, d]
  | .out s0 => [4 + 100 * s0.modeDigit.val, s0.cell]
  | .halt => [99]
  | .data v => [v]

/-- A program is the concatenation of its lines' cells from address 0 (R107). -/
def assemble (lines : List AsmLine) : List Int := lines.flatMap assembleLine

/-! ### Words of the opcode table -/

/-- Cell `k` of an instruction whose bits are `w`, numbered as a binary number: the cells are taken as
`Config.defaultBits` bits each, the first the least significant, two's complement. The architecture has no bits
(R11, R51), and the table's `mask` and `match` are decimal; this is only how a number given as bits is laid into cells.
PRESUMED, log 17. -/
def tableCell (nbits w k : Nat) : Int :=
  let c := (w % 2 ^ nbits) / 2 ^ (Config.defaultBits * k) % 2 ^ Config.defaultBits
  if c < 2 ^ (Config.defaultBits - 1) then (c : Int) else (c : Int) - 2 ^ Config.defaultBits

/-- The cells of the longest instruction (4, R80) laid out from an opcode-table word. -/
def tableCells (nbits w : Nat) : List Int :=
  [tableCell nbits w 0, tableCell nbits w 1, tableCell nbits w 2, tableCell nbits w 3]

/-- What the decoder reads from an instruction whose bits are `w`: only its first cell is an instruction word. -/
def decodeTableWord (nbits w : Nat) : Option Instr :=
  match decode (tableCell nbits w 0) with
  | .ok i => some i
  | .error _ => none

end Sys2Proof
end

