-- ==== Sys2Proof/WellFormed.lean ====
section
/-! DEFINITION. Which instructions can stand in a cell. -/

namespace Sys2Proof

/-- An instruction is well-formed for a width when its instruction word is a word of that width
(spec/00_scope.md R7: every cell holds a value in [WMIN, WMAX]). The digit fields are digits by their type;
this is the one check left, and it bounds the digits no one examines. -/
def Instr.wf (W : Width) (i : Instr) : Bool := W.fits (encode i)

end Sys2Proof
end

