-- ==== Sys2Proof/Machine/State.lean ====
section
/-! DEFINITION. The state of one core (spec/10_state.md R39), its state after reset (R40), and the reasons a step can stop. -/

namespace Sys2Proof.Machine

/-- The state of the dispatch loop: "`Running`, `Halted`, `Faulted(reason)`" (spec/10_state.md R26). The reason stands in
the fault record. -/
inductive RunState where
  | running
  | halted
  | faulted
deriving DecidableEq, Repr

/-- The five fault kinds (spec/60_exceptions.md R160); the fifth is the spec's own (decision D2, log 7). -/
inductive FaultKind where
  | outOfBounds
  | invalidParameterMode
  | unknownOpcode
  | inputExhausted
  | overflow
deriving DecidableEq, Repr

/-- What a `raise K(v)` names (spec/00_scope.md R14): the kind and the offending value (spec/60_exceptions.md R166, log 10). -/
structure Raise where
  kind : FaultKind
  value : Int
deriving DecidableEq, Repr

/-- The fault record (spec/10_state.md R27): kind, address of the faulting instruction word, offending value. -/
structure FaultRecord where
  kind : FaultKind
  pc : Nat
  value : Int
deriving DecidableEq, Repr

/-- One listed cell: its address and its content. The spec's memory has no bytes (spec/20_memory.md R50, R51), so the
unit is the cell and not the byte of `Host.Cell`. DESIGN CHOICE, log 4. -/
abbrev Cell := Nat × Int

/-- Memory `M` (spec/10_state.md R30): `len` is LEN, the number of cells, fixed at reset; `cells` lists, at strictly rising
addresses, the cells whose content is not `unlisted` (Machine/Ops.lean). Addresses at or above `len` do not exist. -/
structure Memory where
  len : Nat
  cells : List Cell
deriving DecidableEq, Repr

/-- The architectural state `(M, pc, run, fault, ic, OUT)` (spec/10_state.md R39) and the parameters of the run a step needs
and never changes: the width W, LEN (in `mem`) and the input sequence INP (log 3). -/
structure State where
  /-- W, the word width of the build (spec/00_scope.md R7); no step changes it. -/
  width : Width
  /-- M and LEN. -/
  mem : Memory
  /-- "the index into Memory of the next instruction word to decode" (R21), a natural number (log 13). -/
  pc : Nat
  /-- the dispatch loop's state (R26) -/
  run : RunState
  /-- the fault record, absent unless `run` is Faulted (R27) -/
  fault : Option FaultRecord
  /-- the input cursor: how many input values have been consumed (R33) -/
  ic : Nat
  /-- INP, the host's input sequence; no step changes it (R33). -/
  inp : List Int
  /-- OUT, the values emitted since reset, oldest first (R35) -/
  out : List Int
deriving DecidableEq, Repr

/-- Why a step answers no state. Both are the spec's own: no step is defined from a terminal state. -/
inductive Fault where
  /-- raised by `step` when `run` is Halted (spec/43_halt.md R152: "there is no resume/retry"). Safe: the hardware does
  nothing either. -/
  | haltedHasNoStep
  /-- raised by `step` when `run` is Faulted (spec/10_state.md R26, spec/60_exceptions.md R180). Safe: the hardware does
  nothing either. -/
  | faultedHasNoStep
deriving DecidableEq, Repr

/-- What the model gives no meaning to. -/
inductive Refusal where
  /-- an instruction with no meaning yet, raised by `exec` only; no arm of this model raises it. Safe. -/
  | notModelled (mnemonic : String)
  /-- raised by `hostReset`: a program or input value lies outside [WMIN, WMAX], or W is below 16
  (spec/70_reset_and_hazards.md R201: "the spec gives such a reset no meaning"). Safe. -/
  | resetWithoutMeaning
deriving DecidableEq, Repr

/-- The machine right after reset (spec/10_state.md R40, spec/70_reset_and_hazards.md R201) with the host's program and input
both empty: pc 0, Running, no fault, cursor 0, nothing emitted. A program is loaded by the reset event itself, `hostReset`
(log 16). The width is the recommended default (log 1). -/
def State.reset : State where
  width := .bits Config.defaultBits
  mem := ⟨0, []⟩
  pc := 0
  run := .running
  fault := none
  ic := 0
  inp := []
  out := []

end Sys2Proof.Machine
end

