-- ==== Sys2Proof/Machine/Ops.lean ====
section
/-! DEFINITION. The named operations over memory, channels and the dispatch loop's registers: the checked read and write
(spec/20_memory.md R53, R56), taking a fault (spec/00_scope.md R14), the advance (spec/40_step_cycle.md R117), NextInput and Emit
(spec/42_io.md R141, R144). -/

namespace Sys2Proof.Machine

/-! ### Memory -/

/-- What a cell inside [0, LEN) that the list does not name holds. Every cell has a value from reset on
(spec/10_state.md R40), so this fixes no open value: it is the content that is left out of the list. Log 4. -/
def unlisted : Int := 0

/-- The content the list gives address `a`. -/
def lookCell : List Cell → Nat → Int
  | [], _ => unlisted
  | (b, v) :: t, a => if b = a then v else lookCell t a

/-- The list without the cells at address `a`. -/
def dropCell (l : List Cell) (a : Nat) : List Cell := l.filter (fun c => decide (c.1 ≠ a))

/-- The list with a cell added at its place in rising order. -/
def insertCell (a : Nat) (v : Int) : List Cell → List Cell
  | [] => [(a, v)]
  | (b, u) :: t => if a < b then (a, v) :: (b, u) :: t else (b, u) :: insertCell a v t

/-- The list with `v` at address `a`: writing what an unlisted cell holds removes the entry. -/
def setCell (l : List Cell) (a : Nat) (v : Int) : List Cell :=
  if v = unlisted then dropCell l a else insertCell a v (dropCell l a)

/-- The canonical form: addresses strictly rising and below LEN, no listed cell holding what an unlisted one holds. -/
abbrev Memory.wf (m : Memory) : Prop :=
  m.cells.Pairwise (fun c d => c.1 < d.1) ∧ ∀ c ∈ m.cells, c.1 < m.len ∧ c.2 ≠ unlisted

/-- `M[a]`, the raw content of cell `a` with no check (spec/00_scope.md R12). -/
def Memory.get (m : Memory) (a : Nat) : Int := lookCell m.cells a

/-- `M[a] <- v` with no check. -/
def Memory.set (m : Memory) (a : Nat) (v : Int) : Memory := ⟨m.len, setCell m.cells a v⟩

/-- Is the integer `a` in `[0, LEN)`? The check is on the mathematical integer (spec/20_memory.md R53, R59). -/
def Memory.inRange (m : Memory) (a : Int) : Bool := decide (0 ≤ a ∧ a < m.len)

/-- `MemRead(a, 1)` (spec/20_memory.md R53). -/
def memRead (m : Memory) (a : Int) : Except Raise Int :=
  if m.inRange a then .ok (m.get a.toNat) else .error ⟨.outOfBounds, a⟩

/-- `MemWrite(a, 1, v)` (spec/20_memory.md R56). -/
def memWrite (m : Memory) (a : Int) (v : Int) : Except Raise Memory :=
  if m.inRange a then .ok (m.set a.toNat v) else .error ⟨.outOfBounds, a⟩

/-- The listed cells of a sequence of words that starts at address `a`. -/
def listCells : Nat → List Int → List Cell
  | _, [] => []
  | a, v :: t => if v = unlisted then listCells (a + 1) t else (a, v) :: listCells (a + 1) t

/-- The memory whose cells are the program's words: `LEN = |P|`, `M[a] = P[a]` (spec/70_reset_and_hazards.md R201). -/
def Memory.ofList (p : List Int) : Memory := ⟨p.length, listCells 0 p⟩

/-- All LEN cells in order: the `finalMemory` a host receives (spec/70_reset_and_hazards.md R211). -/
def Memory.toList (m : Memory) : List Int := (List.range m.len).map m.get

/-- Words written at consecutive addresses from `a` on. -/
def placeCells : List Cell → Nat → List Int → List Cell
  | l, _, [] => l
  | l, a, v :: t => placeCells (setCell l a v) (a + 1) t

/-- The memory with the words `ws` at `a`, `a + 1`, ..., made long enough to hold them. No instruction does this: it
stands for the host's load (log 16). -/
def Memory.place (m : Memory) (a : Nat) (ws : List Int) : Memory :=
  ⟨max m.len (a + ws.length), placeCells m.cells a ws⟩

/-! ### Taking a fault -/

/-- `raise K(v)` (spec/00_scope.md R14, spec/60_exceptions.md R176): `run <- Faulted`, `fault <- (K, pc, v)`; pc stays at the
faulting instruction word and everything else as the executed part of the step left it. There is no handler to go to
(spec/60_exceptions.md R178) and no return (R180). -/
def takeFault (r : Raise) (s : State) : State :=
  { s with run := .faulted, fault := some ⟨r.kind, s.pc, r.value⟩ }

/-- Go on with the result of a line of the step's pseudocode, or take the fault it raised (spec/00_scope.md R14: "no later
line of the step's pseudocode runs"). -/
def attempt {α : Type} (s : State) (x : Except Raise α) (k : α → Host.Outcome State Fault Refusal) :
    Host.Outcome State Fault Refusal :=
  match x with
  | .error r => .next (takeFault r s)
  | .ok v => k v

/-! ### The dispatch loop's registers -/

/-- `pc <- pc + n + 1`, `n` the parameter count of the descriptor (spec/40_step_cycle.md R117). -/
def advance (d : Descriptor) (s : State) : State := { s with pc := s.pc + (d.parameterCount + 1) }

/-- `run <- Halted`, pc unchanged (spec/43_halt.md R150). -/
def haltRun (s : State) : State := { s with run := .halted }

/-- The state with another memory. -/
def setMem (m : Memory) (s : State) : State := { s with mem := m }

/-- The fetch: `MemRead(pc, 1)` (spec/40_step_cycle.md R111). -/
def fetch (s : State) : Except Raise Int := memRead s.mem (s.pc : Int)

/-! ### The channels -/

/-- `ic <- ic + 1` (spec/42_io.md R141). -/
def moveCursor (s : State) : State := { s with ic := s.ic + 1 }

/-- `NextInput()` (spec/42_io.md R141): the value at the cursor and the state with the cursor moved on; `w` is the
instruction word the fault reports. -/
def nextInput (w : Int) (s : State) : Except Raise (Int × State) :=
  match s.inp[s.ic]? with
  | none => .error ⟨.inputExhausted, w⟩
  | some v => .ok (v, moveCursor s)

/-- `Emit(v)` (spec/42_io.md R144): it cannot fault and cannot block (OUTCAP = unbounded, log 12). -/
def emit (v : Int) (s : State) : State := { s with out := s.out ++ [v] }

/-! ### Numeric codes of the host-visible registers -/

/-- `Running = 0`, `Halted = 1`, `Faulted = 2` (spec/10_state.md R26; decision D7, log 14). -/
def RunState.code : RunState → Nat
  | .running => 0
  | .halted => 1
  | .faulted => 2

/-- Codes 1 to 5 (spec/60_exceptions.md R160; decision D7, log 14). -/
def FaultKind.code : FaultKind → Nat
  | .outOfBounds => 1
  | .invalidParameterMode => 2
  | .unknownOpcode => 3
  | .inputExhausted => 4
  | .overflow => 5

/-- The code of a state's fault: 0 means no fault (spec/60_exceptions.md R160). -/
def faultCode (s : State) : Nat :=
  match s.fault with
  | none => 0
  | some r => r.kind.code

end Sys2Proof.Machine
end

