-- ==== Sys2Proof/Machine/Flags.lean ====
section
/-! DEFINITION. The hardware has no flags and no condition codes (spec/10_state.md R25). What another machine would record
in an overflow flag is a fault here; its test is the one definition of this file (spec/41_arithmetic.md R133). -/

namespace Sys2Proof.Machine

/-- The exact integer result of ADD or MUL if it lies in [WMIN, WMAX], else `raise Overflow(w)`, `w` the instruction word
(spec/41_arithmetic.md R133; the spec's own decision D2, log 7). With W = infinity it never raises. -/
def checkedResult (W : Width) (w r : Int) : Except Raise Int :=
  if W.fits r then .ok r else .error ⟨.overflow, w⟩

end Sys2Proof.Machine
end

