-- ==== Sys2Proof/Machine/Operands.lean ====
section
/-! DEFINITION. Every operand form: the two modes of a source parameter and the forced-Immediate destination
(spec/20_memory.md R54, R57, spec/30_encoding.md R86 to R91, spec/40_step_cycle.md R115). -/

namespace Sys2Proof.Machine

/-- `Operand(a, mode)` (spec/20_memory.md R54): `a` is the address of the parameter cell; Immediate yields its content,
Position the content of the cell whose index that is. -/
def operand (m : Memory) (a : Int) : Mode → Except Raise Int
  | .immediate => memRead m a
  | .position =>
    match memRead m a with
    | .error r => .error r
    | .ok r => memRead m r

/-- The address of parameter `i` of the instruction at pc: `pc + i + 1` (spec/30_encoding.md R86). -/
def paramAddr (s : State) (i : Nat) : Int := ((s.pc + i + 1 : Nat) : Int)

/-- The resolution of parameter `i` of an instruction with descriptor `d` whose mode digit is `dg`
(spec/40_step_cycle.md R110 line 5, R115): a write-destination index is forced to Immediate and its digit not looked at
(spec/30_encoding.md R89); otherwise the mode is decided first, and the read follows. It changes no state. -/
def resolveParam (d : Descriptor) (s : State) (i : Nat) (dg : Digit) : Except Raise Int :=
  if i ∈ d.writeParameterIndices then operand s.mem (paramAddr s i) .immediate
  else
    match modeOfDigit dg with
    | none => .error ⟨.invalidParameterMode, (dg.val : Int)⟩
    | some mode => operand s.mem (paramAddr s i) mode

end Sys2Proof.Machine
end

