-- ==== Sys2Proof/Machine/Arithmetic.lean ====
section
/-! DEFINITION. ADD and MUL (spec/41_arithmetic.md). -/

namespace Sys2Proof.Machine

/-- The whole step common to ADD and MUL (spec/41_arithmetic.md R130 to R133): p0, p1, the destination's cell, the exact
result and its range test, the one write, the advance. All reads precede the write (spec/20_memory.md R63, R67). -/
def arithmetic (d : Descriptor) (op : Int → Int → Int) (w : Int) (m0 m1 dst : Digit) (s : State) :
    Host.Outcome State Fault Refusal :=
  attempt s (resolveParam d s 0 m0) fun a =>
  attempt s (resolveParam d s 1 m1) fun b =>
  attempt s (resolveParam d s 2 dst) fun p2 =>
  attempt s (checkedResult s.width w (op a b)) fun r =>
  attempt s (memWrite s.mem p2 r) fun m =>
  .next (advance d (setMem m s))

/-- ADD: "dest = p0 + p1" (spec/41_arithmetic.md R131). -/
def execAdd (m0 m1 d : Digit) (x : Nat) (s : State) : Host.Outcome State Fault Refusal :=
  arithmetic addDescriptor (fun a b => a + b) (encode (.add m0 m1 d x)) m0 m1 d s

/-- MUL: "dest = p0 * p1" (spec/41_arithmetic.md R132). -/
def execMul (m0 m1 d : Digit) (x : Nat) (s : State) : Host.Outcome State Fault Refusal :=
  arithmetic mulDescriptor (fun a b => a * b) (encode (.mul m0 m1 d x)) m0 m1 d s

end Sys2Proof.Machine
end

