-- ==== Sys2Proof/Machine/Halt.lean ====
section
/-! DEFINITION. HALT (spec/43_halt.md). -/

namespace Sys2Proof.Machine

/-- HALT (spec/43_halt.md R150): `run <- Halted`; pc, M, ic and OUT unchanged; no digit above the opcode is examined. -/
def execHalt (_x : Nat) (s : State) : Host.Outcome State Fault Refusal := .next (haltRun s)

end Sys2Proof.Machine
end

