-- ==== Sys2Proof/Machine/InputOutput.lean ====
section
/-! DEFINITION. IN and OUT (spec/42_io.md). -/

namespace Sys2Proof.Machine

/-- IN (spec/42_io.md R142): the destination's cell, the input value, the write, the advance. The value is taken before the
write and not given back when the write faults, so that fault is taken in the state with the cursor moved
(decision D8, log 11). -/
def execInp (d : Digit) (x : Nat) (s : State) : Host.Outcome State Fault Refusal :=
  attempt s (resolveParam inDescriptor s 0 d) fun dst =>
  attempt s (nextInput (encode (.inp d x)) s) fun taken =>
  attempt taken.2 (memWrite taken.2.mem dst taken.1) fun m =>
  .next (advance inDescriptor (setMem m taken.2))

/-- OUT (spec/42_io.md R145): the operand, the append, the advance. The digits `x` above `m0` are not examined (R101). -/
def execOut (m0 : Digit) (_x : Nat) (s : State) : Host.Outcome State Fault Refusal :=
  attempt s (resolveParam outDescriptor s 0 m0) fun v =>
  .next (advance outDescriptor (emit v s))

end Sys2Proof.Machine
end

