-- ==== Sys2Proof/Machine/Dispatch.lean ====
section
/-! DEFINITION. One arm per instruction (spec/30_encoding.md R94, R97). exec is the instruction's own part of a step; that no
step is made unless run is Running is step's (Machine/Step.lean, log 6). -/

namespace Sys2Proof.Machine

def exec (i : Instr) (s : State) : Host.Outcome State Fault Refusal :=
  match i with
  | .add m0 m1 d x => Sys2Proof.Machine.execAdd m0 m1 d x s
  | .mul m0 m1 d x => Sys2Proof.Machine.execMul m0 m1 d x s
  | .inp d x => Sys2Proof.Machine.execInp d x s
  | .out m0 x => Sys2Proof.Machine.execOut m0 x s
  | .halt x => Sys2Proof.Machine.execHalt x s

end Sys2Proof.Machine
end

