-- ==== Sys2Proof/Machine/Step.lean ====
section
/-! DEFINITION. One step of the dispatch loop (spec/40_step_cycle.md R110), and the placing of an instruction where the next
step fetches it. -/

namespace Sys2Proof.Machine

/-- `Step()` (spec/40_step_cycle.md R110): defined only while `run` is Running; the fetch, the decode (negative word, halt,
lookup), and then the instruction. A word that is no instruction raises UnknownOpcode with the whole word
(spec/30_encoding.md R82, R98). From Halted and Faulted no step is defined (spec/10_state.md R26). -/
def step (s : State) : Host.Outcome State Fault Refusal :=
  match s.run with
  | .halted => .fault .haltedHasNoStep
  | .faulted => .fault .faultedHasNoStep
  | .running =>
    attempt s (fetch s) fun w =>
      match decode w with
      | .error _ => .next (takeFault ⟨.unknownOpcode, w⟩ s)
      | .ok i => exec i s

/-- `s` with the instruction whose bits are `w` in the cells the next step fetches, the cells of the longest instruction
written and memory made long enough to hold them, and the core Running, so that the next step runs it. It stands for the
host's load (log 16); nothing else changes. -/
def State.withFetchWord (s : State) (nbits w : Nat) : State :=
  { s with mem := s.mem.place s.pc (tableCells nbits w), run := .running, fault := none }

end Sys2Proof.Machine
end

