-- ==== Sys2Proof/Machine/TableStep.lean ====
section
/-! DEFINITION. The dispatch loop as spec/40_step_cycle.md R110 writes it, driven by the instruction set table: a loop over the
parameters and one handler per descriptor. It is the second, table-driven reading of the same rule that `step` is
compared with; nothing else uses it. -/

namespace Sys2Proof.Machine

/-- Line 5 of R110 for the parameters below `k`, in ascending order: the parameter list `p` of R113. -/
def resolveAll (d : Descriptor) (w : Nat) (s : State) : Nat → Except Raise (List Int)
  | 0 => .ok []
  | k + 1 =>
    match resolveAll d w s k with
    | .error r => .error r
    | .ok ps =>
      match resolveParam d s k (digit w (k + 2)) with
      | .error r => .error r
      | .ok v => .ok (ps ++ [v])

/-- Line 6 of R110: the handler of the table (spec/30_encoding.md R94), given the resolved parameter list, the memory, the
cursor and the output, and the instruction word for the fault record. It answers the state, or the fault and the state it
is taken in. The list has as many entries as the handler reads (R113), so the 0 of `getD` is never read. -/
def handle (h : Handler) (p : List Int) (w : Int) (s : State) : Except (Raise × State) State :=
  match h with
  | .add =>
    match checkedResult s.width w (p.getD 0 0 + p.getD 1 0) with
    | .error r => .error (r, s)
    | .ok v =>
      match memWrite s.mem (p.getD 2 0) v with
      | .error r => .error (r, s)
      | .ok m => .ok (setMem m s)
  | .mul =>
    match checkedResult s.width w (p.getD 0 0 * p.getD 1 0) with
    | .error r => .error (r, s)
    | .ok v =>
      match memWrite s.mem (p.getD 2 0) v with
      | .error r => .error (r, s)
      | .ok m => .ok (setMem m s)
  | .input =>
    match nextInput w s with
    | .error r => .error (r, s)
    | .ok (v, s') =>
      match memWrite s'.mem (p.getD 0 0) v with
      | .error r => .error (r, s')
      | .ok m => .ok (setMem m s')
  | .output => .ok (emit (p.getD 0 0) s)

/-- R110, line by line. -/
def tableStep (s : State) : Host.Outcome State Fault Refusal :=
  match s.run with
  | .halted => .fault .haltedHasNoStep
  | .faulted => .fault .faultedHasNoStep
  | .running =>
    match memRead s.mem (s.pc : Int) with
    | .error r => .next (takeFault r s)
    | .ok w =>
      if w < 0 then .next (takeFault ⟨.unknownOpcode, w⟩ s)
      else if w.toNat % 100 = haltOpcode then .next (haltRun s)
      else
        match lookup (w.toNat % 100) with
        | none => .next (takeFault ⟨.unknownOpcode, w⟩ s)
        | some d =>
          match resolveAll d w.toNat s d.parameterCount with
          | .error r => .next (takeFault r s)
          | .ok p =>
            match handle d.handler p w s with
            | .error (r, s') => .next (takeFault r s')
            | .ok s' => .next (advance d s')

end Sys2Proof.Machine
end

