-- ==== Sys2Proof/Machine/HostInterface.lean ====
section
/-! DEFINITION. The host interface `Execute(program, input, output) -> finalMemory` at transaction level: load, run, collect
(spec/70_reset_and_hazards.md R200 to R212). -/

namespace Sys2Proof.Machine

/-- The reset event `Reset(P, INP)` (spec/70_reset_and_hazards.md R200, R201), in any state: the whole previous state is
discarded, and only the build's width stays. A value outside [WMIN, WMAX], or a width below 16, is refused: the spec gives
such a reset no meaning. -/
def hostReset (s : State) (p inp : List Int) : Host.Outcome State Fault Refusal :=
  if s.width.supported && p.all s.width.fits && inp.all s.width.fits then
    .next { width := s.width, mem := Memory.ofList p, pc := 0, run := .running, fault := none, ic := 0, inp := inp, out := [] }
  else .refused .resetWithoutMeaning

/-- At most `k` steps, ending at the first state that is not Running (spec/40_step_cycle.md R119). -/
def runLoop : Nat → State → State
  | 0, s => s
  | k + 1, s =>
    match step s with
    | .next t => runLoop k t
    | .fault _ => s
    | .refused _ => s

/-- What the host receives when a run has ended. -/
inductive RunResult where
  /-- at Halted: all LEN cells and the output sequence (spec/70_reset_and_hazards.md R211) -/
  | finished (finalMemory output : List Int)
  /-- at Faulted: the fault record and not the memory; `emitted` is what already stands in the host's output sequence
  and is no result (spec/70_reset_and_hazards.md R212; decision D14, log 18). -/
  | failed (record : FaultRecord) (emitted : List Int)
  /-- the run has not ended: the host receives nothing (spec/70_reset_and_hazards.md R209). -/
  | nothing
deriving DecidableEq, Repr

/-- The collect phase (spec/70_reset_and_hazards.md R211, R212). -/
def collect (s : State) : RunResult :=
  match s.run, s.fault with
  | .halted, _ => .finished s.mem.toList s.out
  | .faulted, some r => .failed r s.out
  | .faulted, none => .nothing
  | .running, _ => .nothing

/-- The whole transaction on a core in any state: reset, run for the `LEN div 2 + 1` steps that are always enough
(spec/70_reset_and_hazards.md R214), collect; `none` where the reset is refused. -/
def execute (s : State) (p inp : List Int) : Option RunResult :=
  match hostReset s p inp with
  | .next t => some (collect (runLoop (t.mem.len / 2 + 1) t))
  | .fault _ => none
  | .refused _ => none

end Sys2Proof.Machine
end

