-- ==== Sys2Proof/Safety.lean ====
section
/-! DEFINITION. The terms claims are made in: the invariant of the machine, what a parameter holds, a safe run. -/

namespace Sys2Proof

/-! ### The digits of an instruction -/

/-- The fields of `i` are the decimal digits of the word `w`, each at the place spec/30_encoding.md R81 gives it, read as
integers. -/
def Instr.hasFieldsOf (i : Instr) (w : Int) : Prop :=
  match i with
  | .add m0 m1 d x => w % 100 = 1 ∧ (m0.val : Int) = w / 100 % 10 ∧ (m1.val : Int) = w / 1000 % 10 ∧
      (d.val : Int) = w / 10000 % 10 ∧ (x : Int) = w / 100000
  | .mul m0 m1 d x => w % 100 = 2 ∧ (m0.val : Int) = w / 100 % 10 ∧ (m1.val : Int) = w / 1000 % 10 ∧
      (d.val : Int) = w / 10000 % 10 ∧ (x : Int) = w / 100000
  | .inp d x => w % 100 = 3 ∧ (d.val : Int) = w / 100 % 10 ∧ (x : Int) = w / 1000
  | .out m0 x => w % 100 = 4 ∧ (m0.val : Int) = w / 100 % 10 ∧ (x : Int) = w / 1000
  | .halt x => w % 100 = 99 ∧ (x : Int) = w / 100

/-- Two instructions of one opcode whose examined digits agree: they may differ in the digit of a destination and in the digits
above the last parameter's (spec/30_encoding.md R101). -/
def Instr.sameExamined (i j : Instr) : Prop :=
  match i, j with
  | .add m0 m1 _ _, .add n0 n1 _ _ => m0 = n0 ∧ m1 = n1
  | .mul m0 m1 _ _, .mul n0 n1 _ _ => m0 = n0 ∧ m1 = n1
  | .inp _ _, .inp _ _ => True
  | .out m0 _, .out n0 _ => m0 = n0
  | .halt _, .halt _ => True
  | _, _ => False

end Sys2Proof

namespace Sys2Proof.Machine

/-! ### What a parameter holds -/

/-- The raw value of parameter `i`: `M[pc + i + 1]` (spec/00_scope.md glossary, spec/30_encoding.md R86). -/
def rawParam (s : State) (i : Nat) : Int := s.mem.get (s.pc + i + 1)

/-- Parameter `i`, read as a source with mode digit `dg`, can be read and its operand is `v`: Immediate (digit 1), the raw
value; Position (digit 0), the content of the cell whose index the raw value is (spec/20_memory.md R54, spec/30_encoding.md
R87). -/
abbrev SourceIs (s : State) (i : Nat) (dg : Digit) (v : Int) : Prop :=
  s.pc + i + 1 < s.mem.len ∧
    ((dg.val = 1 ∧ v = rawParam s i) ∨
     (dg.val = 0 ∧ s.mem.inRange (rawParam s i) ∧ v = s.mem.get (rawParam s i).toNat))

/-- Parameter `i`, read as a destination, can be read and its address is `a`: the raw value (spec/20_memory.md R57). -/
abbrev DestIs (s : State) (i : Nat) (a : Int) : Prop :=
  s.pc + i + 1 < s.mem.len ∧ a = rawParam s i

/-! ### What a fault leaves -/

/-- `s` ended by a fault of kind `k` with offending value `v`: `run` is Faulted, the record holds the kind, the program
counter and the value, and nothing else differs (spec/00_scope.md R14). Written out apart from `takeFault`, for claims. -/
abbrev faultedAt (s : State) (k : FaultKind) (v : Int) : State :=
  { s with run := .faulted, fault := some ⟨k, s.pc, v⟩ }

/-- `s` has ended by a fault of kind `k`. -/
abbrev State.endedBy (s : State) (k : FaultKind) : Prop := s.run = .faulted ∧ ∃ r ∈ s.fault, r.kind = k

/-! ### The invariant -/

/-- Every value the machine holds is a word of its width (spec/00_scope.md R7), and the width is one R7 admits. -/
abbrev State.wordsFit (s : State) : Prop :=
  s.width.supported = true ∧
    (∀ a, a < s.mem.len → s.width.fits (s.mem.get a) = true) ∧
    (∀ v ∈ s.inp, s.width.fits v = true) ∧
    (∀ v ∈ s.out, s.width.fits v = true)

/-- pc is in [0, LEN] (spec/10_state.md R23), ic in [0, |INP|] (R33), and at most one value has been emitted for every two
cells passed, whence `|OUT| <= LEN div 2` (R38). -/
abbrev State.registersBounded (s : State) : Prop :=
  s.pc ≤ s.mem.len ∧ s.ic ≤ s.inp.length ∧ 2 * s.out.length ≤ s.pc

/-- The fault record is present exactly when Faulted, with its pc the program counter (spec/10_state.md R22, R27); in Halted
the program counter is at a halt word (R22, spec/43_halt.md R150). -/
abbrev State.endsRecorded (s : State) : Prop :=
  (s.run = .faulted ↔ s.fault.isSome = true) ∧
    (∀ r ∈ s.fault, r.pc = s.pc) ∧
    (s.run = .halted → s.pc < s.mem.len ∧ 0 ≤ s.mem.get s.pc ∧ s.mem.get s.pc % 100 = 99)

/-- The invariant of the machine. -/
abbrev State.Inv (s : State) : Prop :=
  s.mem.wf ∧ s.wordsFit ∧ s.registersBounded ∧ s.endsRecorded

/-! ### Safe runs -/

/-- A run that ends well: within the bound of spec/70_reset_and_hazards.md R214 it is Halted and not Faulted (R210, R220). -/
abbrev State.runsSafely (s : State) : Prop := (runLoop (s.mem.len / 2 + 1) s).run = .halted

end Sys2Proof.Machine
end

