-- ==== Sys2Proof/Certificates/Slice0/Obligations.lean ====
section
/-! DEFINITION. The statements for the provers. Each docstring names the rule of spec/ it formalises; where a clause rests on a
decision of spec/92_eei_decisions.md, the docstring names the decision and the log entry, and the statement is a derived
one. -/

open Sys2Proof Sys2Proof.Machine

/-! ### Encoding -/

/-- No digit of an instruction is lost or moved: the decoder reads back every instruction the encoder writes, for every value
of every field, well-formed for some width or not. -/
def Obligations.DecodeOfEncode : Prop :=
  ∀ i : Instr, decode (encode i) = .ok i

/-- An instruction word has one meaning: the encoder gives back the very word the decoder read. -/
def Obligations.EncodeOfDecode : Prop :=
  ∀ (w : Int) (i : Instr), decode w = .ok i → encode i = w

/-- R81: the opcode is the two low decimal digits and mode digit `k` is digit `k + 2`; for a word that is not negative. -/
def Obligations.FieldsAreDecimalDigits : Prop :=
  ∀ (w : Int) (i : Instr), 0 ≤ w → decode w = .ok i →
    i.hasFieldsOf w

/-- The decoder refuses exactly the words of the last row and the first row of the partition of all words: a negative word
(decision D3, log 8) and a word with one of the 95 unregistered opcodes. -/
def Obligations.DecoderRefusesExactly : Prop :=
  ∀ w : Int, (∃ e, decode w = .error e) ↔
    (w < 0 ∨ (w % 100 ≠ 1 ∧ w % 100 ≠ 2 ∧ w % 100 ≠ 3 ∧ w % 100 ≠ 4 ∧ w % 100 ≠ 99))

/-- The worked words of the spec's encoding table decode to the instructions it gives for them. -/
def Obligations.WorkedWordsDecode : Prop :=
  decode 1 = .ok (.add 0 0 0 0) ∧ decode 2 = .ok (.mul 0 0 0 0) ∧ decode 1002 = .ok (.mul 0 1 0 0) ∧
  decode 1101 = .ok (.add 1 1 0 0) ∧ decode 3 = .ok (.inp 0 0) ∧ decode 4 = .ok (.out 0 0) ∧
  decode 104 = .ok (.out 1 0) ∧ decode 99 = .ok (.halt 0)

/-- R88: digit 0 is Position, digit 1 Immediate, there is no third mode, and the digit of a short word is 0. -/
def Obligations.ShortWordsArePosition : Prop :=
  modeOfDigit 0 = some .position ∧ modeOfDigit 1 = some .immediate ∧
  (∀ m : Mode, m = .position ∨ m = .immediate) ∧
  (∀ dg : Digit, 2 ≤ dg.val → modeOfDigit dg = none) ∧
  (∀ w i : Nat, w < 10 ^ (i + 2) → decodeParameterMode w i = some .position)

/-- R87: "divide `word` by `10^(parameter_index + 2)` ..., then take `mod 10`": 0 is Position, 1 is Immediate, any other digit
raises InvalidParameterMode with that digit when the parameter is resolved; and the source's two worked values. -/
def Obligations.ParameterModeIsItsDigit : Prop :=
  (∀ w i : Nat,
    (w / 10 ^ (i + 2) % 10 = 0 → decodeParameterMode w i = some .position) ∧
    (w / 10 ^ (i + 2) % 10 = 1 → decodeParameterMode w i = some .immediate) ∧
    (2 ≤ w / 10 ^ (i + 2) % 10 → decodeParameterMode w i = none ∧
      ∀ (d : Descriptor) (s : State), i ∉ d.writeParameterIndices →
        resolveParam d s i (digit w (i + 2)) =
          .error ⟨.invalidParameterMode, ((w / 10 ^ (i + 2) % 10 : Nat) : Int)⟩)) ∧
  decodeParameterMode 1002 0 = some .position ∧ decodeParameterMode 1002 1 = some .immediate

/-- R95: `Lookup(op)` is the descriptor of ISET with that opcode, or none; at its call site none raises UnknownOpcode with the
instruction word; `Lookup(99)` is none, and a word with opcode 99 halts instead. -/
def Obligations.LookupIsTheTable : Prop :=
  (∀ op d, lookup op = some d ↔ d ∈ iset ∧ d.opcode = op) ∧
  (∀ op, lookup op = none ↔ ∀ d ∈ iset, d.opcode ≠ op) ∧ lookup 99 = none ∧
  (∀ (s : State) (w : Nat), s.run = .running → s.pc < s.mem.len → s.mem.get s.pc = w →
    (w % 100 = 99 → step s = .next { s with run := .halted }) ∧
    (w % 100 ≠ 99 → lookup (w % 100) = none → step s = .next (faultedAt s .unknownOpcode (w : Int))))

/-- The constraints on the table hold of ISET: no two descriptors share an opcode, the halt sentinel is not mapped, every
write index is below the parameter count, every opcode is at most 98. The last two are the spec's own. -/
def Obligations.TableConstraintsHold : Prop :=
  (iset.map Descriptor.opcode).Nodup ∧
  ∀ d ∈ iset, d.opcode ≠ 99 ∧ (∀ i ∈ d.writeParameterIndices, i < d.parameterCount) ∧ d.opcode ≤ 98

/-- The assembler writes the encoder's word, with 0 in every unexamined digit, and then the parameter cells, as many cells as
the instruction is long (the spec's own notation, decision D12, log 23). -/
def Obligations.AssembledLinesEncode : Prop :=
  (∀ s0 s1 d, assembleLine (.add s0 s1 d) =
    [encode (.add s0.modeDigit s1.modeDigit 0 0), s0.cell, s1.cell, d]) ∧
  (∀ s0 s1 d, assembleLine (.mul s0 s1 d) =
    [encode (.mul s0.modeDigit s1.modeDigit 0 0), s0.cell, s1.cell, d]) ∧
  (∀ d, assembleLine (.inp d) = [encode (.inp 0 0), d]) ∧
  (∀ s0, assembleLine (.out s0) = [encode (.out s0.modeDigit 0), s0.cell]) ∧
  assembleLine .halt = [encode (.halt 0)] ∧
  (∀ m0 m1 d x, (Instr.add m0 m1 d x).length = 4) ∧ (∀ m0 m1 d x, (Instr.mul m0 m1 d x).length = 4) ∧
  (∀ d x, (Instr.inp d x).length = 2) ∧ (∀ m0 x, (Instr.out m0 x).length = 2) ∧ (∀ x, (Instr.halt x).length = 1)

/-! ### Memory and operands -/

/-- R53: the checked read, and that the fetch, the raw read of each parameter cell and both reads of an operand are such reads.
A read changes no state: its answer is a word or a fault. -/
def Obligations.EveryReadIsChecked : Prop :=
  (∀ (m : Memory) (a : Int),
    (a < 0 ∨ (m.len : Int) ≤ a → memRead m a = .error ⟨.outOfBounds, a⟩) ∧
    (0 ≤ a → a < m.len → memRead m a = .ok (m.get a.toNat))) ∧
  (∀ s : State, fetch s = memRead s.mem (s.pc : Int)) ∧
  (∀ (d : Descriptor) (s : State) (i : Nat) (dg : Digit), i ∈ d.writeParameterIndices →
    resolveParam d s i dg = memRead s.mem ((s.pc + i + 1 : Nat) : Int)) ∧
  (∀ (d : Descriptor) (s : State) (i : Nat) (dg : Digit) (mode : Mode), i ∉ d.writeParameterIndices →
    modeOfDigit dg = some mode → resolveParam d s i dg = operand s.mem ((s.pc + i + 1 : Nat) : Int) mode) ∧
  (∀ (m : Memory) (a : Int), operand m a .immediate = memRead m a) ∧
  (∀ (m : Memory) (a r : Int), memRead m a = .ok r → operand m a .position = memRead m r)

/-- R54: Immediate yields the content of the parameter cell, Position the content of the cell whose index that is; a fault of
the first read is the operand's fault, and there is no second level. `a` is the address of the parameter cell. -/
def Obligations.OperandModes : Prop :=
  (∀ (d : Descriptor) (s : State) (i : Nat) (dg : Digit) (mode : Mode), i ∉ d.writeParameterIndices →
    modeOfDigit dg = some mode → resolveParam d s i dg = operand s.mem ((s.pc + i + 1 : Nat) : Int) mode) ∧
  ∀ (m : Memory) (a : Int),
    operand m a .immediate = memRead m a ∧
    (∀ e, memRead m a = .error e → operand m a .position = .error e) ∧
    (∀ r, memRead m a = .ok r → operand m a .position = memRead m r) ∧
    (∀ r, memRead m a = .ok r → (r < 0 ∨ (m.len : Int) ≤ r) → operand m a .position = .error ⟨.outOfBounds, r⟩)

/-- R56: the checked write. Outside memory it fails and answers no memory; inside, exactly one cell has the new word. -/
def Obligations.WriteChangesOneCell : Prop :=
  ∀ (m : Memory) (a v : Int),
    (a < 0 ∨ (m.len : Int) ≤ a → memWrite m a v = .error ⟨.outOfBounds, a⟩) ∧
    (0 ≤ a → a < m.len → ∃ m', memWrite m a v = .ok m' ∧ m'.len = m.len ∧ m'.get a.toNat = v ∧
      ∀ b, b ≠ a.toNat → m'.get b = m.get b)

/-- R89: a write-destination parameter resolves to its raw value whatever its digit, and never raises InvalidParameterMode. -/
def Obligations.DestinationDigitIgnored : Prop :=
  ∀ (d : Descriptor) (s : State) (i : Nat), i ∈ d.writeParameterIndices →
    (∀ dg dg', resolveParam d s i dg = resolveParam d s i dg') ∧
    (∀ dg a, DestIs s i a → resolveParam d s i dg = .ok a) ∧
    (∀ dg e, resolveParam d s i dg = .error e → e.kind ≠ .invalidParameterMode)

/-! ### The step -/

/-- When the word at the program counter of a Running core decodes, the step is that instruction and nothing is added. -/
def Obligations.StepRunsDecoded : Prop :=
  ∀ (s : State) (i : Instr), s.run = .running → s.pc < s.mem.len → decode (s.mem.get s.pc) = .ok i →
    step s = exec i s

/-- The step made of decoded instructions is the table-driven dispatch loop of R110, line by line, in every state. (Line 2 is
decision D3, log 8, and the Overflow of line 6 decision D2, log 7.) -/
def Obligations.StepIsTheDispatchLoop : Prop :=
  ∀ s : State, step s = tableStep s

/-- A step answers a next state exactly while Running: no Running state is stuck, and no step is defined from Halted or
Faulted. -/
def Obligations.StepsExactlyWhileRunning : Prop :=
  ∀ s : State, (∃ t, step s = .next t) ↔ s.run = .running

/-- R111: the fetch reads live memory, so it sees a write just made there; at or past LEN it raises OutOfBounds(pc), which
with the program counter in [0, LEN] happens exactly when pc = LEN. -/
def Obligations.FetchReadsLiveMemory : Prop :=
  (∀ s : State, s.pc < s.mem.len → fetch s = .ok (s.mem.get s.pc)) ∧
  (∀ (s : State) (m : Memory) (v : Int), memWrite s.mem (s.pc : Int) v = .ok m → fetch (setMem m s) = .ok v) ∧
  (∀ s : State, s.run = .running → s.mem.len ≤ s.pc → step s = .next (faultedAt s .outOfBounds (s.pc : Int))) ∧
  (∀ s : State, s.registersBounded → ((∃ e, fetch s = .error e) ↔ s.pc = s.mem.len))

/-- R98: a word whose opcode is none of 1, 2, 3, 4, 99 raises UnknownOpcode with the whole word, whatever its other digits. -/
def Obligations.UnregisteredOpcodesFault : Prop :=
  ∀ s : State, s.run = .running → s.pc < s.mem.len → 0 ≤ s.mem.get s.pc →
    s.mem.get s.pc % 100 ≠ 1 → s.mem.get s.pc % 100 ≠ 2 → s.mem.get s.pc % 100 ≠ 3 → s.mem.get s.pc % 100 ≠ 4 →
    s.mem.get s.pc % 100 ≠ 99 →
    step s = .next (faultedAt s .unknownOpcode (s.mem.get s.pc))

/-- A negative word raises UnknownOpcode, -99 and -1 among them: the spec's decision D3 (log 8), not the source's words. -/
def Obligations.NegativeWordsFault : Prop :=
  ∀ s : State, s.run = .running → s.pc < s.mem.len → s.mem.get s.pc < 0 →
    step s = .next (faultedAt s .unknownOpcode (s.mem.get s.pc))

/-- R99: every word that is not negative and ends in 99 halts, whatever its other digits; only `run` changes. -/
def Obligations.HaltWordsHalt : Prop :=
  ∀ s : State, s.run = .running → s.pc < s.mem.len → 0 ≤ s.mem.get s.pc → s.mem.get s.pc % 100 = 99 →
    step s = .next { s with run := .halted }

/-- R152: Halted is terminal, whatever the rest of the state; it is the state, and the only one, in which the host is given the
final memory; only a reset leaves it, and that takes nothing from it but the build's width. -/
def Obligations.HaltedIsTerminal : Prop :=
  (∀ s t : State, s.run = .halted → step s ≠ .next t) ∧
  (∀ s : State, s.run = .halted → collect s = .finished s.mem.toList s.out) ∧
  (∀ (s : State) (fm out : List Int), collect s = .finished fm out → s.run = .halted) ∧
  (∀ (s s' : State) (p inp : List Int), s.run = .halted → s'.width = s.width → hostReset s p inp = hostReset s' p inp)

/-- R22: pc is advanced by 4 after ADD and MUL and by 2 after IN and OUT; a halt and a fault leave it, and the fault record's
pc is the program counter. -/
def Obligations.ProgramCounterAfterStep : Prop :=
  ∀ s t : State, step s = .next t →
    (t.run = .running → 0 ≤ s.mem.get s.pc ∧
      (((s.mem.get s.pc % 100 = 1 ∨ s.mem.get s.pc % 100 = 2) ∧ t.pc = s.pc + 4) ∨
       ((s.mem.get s.pc % 100 = 3 ∨ s.mem.get s.pc % 100 = 4) ∧ t.pc = s.pc + 2))) ∧
    (t.run = .halted → t.pc = s.pc ∧ s.pc < s.mem.len ∧ 0 ≤ s.mem.get s.pc ∧ s.mem.get s.pc % 100 = 99) ∧
    (t.run = .faulted → t.pc = s.pc ∧ ∃ r, t.fault = some r ∧ r.pc = s.pc)

/-- R117: the advance is the parameter count, plus one, of the descriptor found for the word fetched before the handler ran, and
the new program counter is checked only by the next fetch. -/
def Obligations.AdvanceByDescriptor : Prop :=
  ∀ s t : State, step s = .next t → t.run = .running →
    (∃ d, lookup ((s.mem.get s.pc).toNat % 100) = some d ∧ t.pc = s.pc + d.parameterCount + 1) ∧
    (t.mem.len ≤ t.pc → step t = .next (faultedAt t .outOfBounds (t.pc : Int)))

/-- R116: a fault while the parameters are resolved is taken before the handler runs: nothing consumed, emitted or written; and
with all of them resolved the rest of the step is the handler's, given the resolved list, and the advance. -/
def Obligations.ResolutionFaultsComeFirst : Prop :=
  ∀ (s : State) (d : Descriptor), s.run = .running → s.pc < s.mem.len → 0 ≤ s.mem.get s.pc →
    lookup ((s.mem.get s.pc).toNat % 100) = some d →
    (∀ r, resolveAll d (s.mem.get s.pc).toNat s d.parameterCount = .error r →
      step s = .next (faultedAt s r.kind r.value)) ∧
    (∀ p, resolveAll d (s.mem.get s.pc).toNat s d.parameterCount = .ok p → p.length = d.parameterCount ∧
      (∀ s', handle d.handler p (s.mem.get s.pc) s = .ok s' →
        step s = .next { s' with pc := s.pc + d.parameterCount + 1 }) ∧
      (∀ r s', handle d.handler p (s.mem.get s.pc) s = .error (r, s') → step s = .next (takeFault r s')))

/-- Every run ends: from every Running state, whatever it is, at most `(LEN - pc) div 2 + 1` steps lead to a state that is not
Running (from pc = 0 this is the bound `LEN div 2 + 1`). -/
def Obligations.EveryRunEnds : Prop :=
  ∀ s : State, s.run = .running → ∃ k, k ≤ (s.mem.len - s.pc) / 2 + 1 ∧
    ∃ t : State, Sys2Proof.core.run k s = .next t ∧ t.run ≠ .running

/-! ### Invariants and reset -/

/-- Every step keeps the invariant of the machine: memory canonical, every value a word of the width, pc and ic in their
ranges, the output no longer than the cells passed allow, the fault record present exactly when Faulted. -/
def Obligations.StepKeepsInvariant : Prop :=
  ∀ s t : State, s.Inv → step s = .next t → t.Inv

/-- The invariant holds after reset. (The width 64 and the empty program and input of State.reset are the model's choice, logs
1 and 16.) -/
def Obligations.ResetMeetsInvariant : Prop :=
  State.reset.Inv

/-- The invariant holds after every reset the host can make. -/
def Obligations.HostResetMeetsInvariant : Prop :=
  ∀ (s t : State) (p inp : List Int), hostReset s p inp = .next t → t.Inv

/-- R201: the reset event, for a program and an input whose every value is a word; any other reset is given no meaning. -/
def Obligations.HostResetState : Prop :=
  ∀ (s : State) (p inp : List Int), s.width.supported = true →
    ((∀ v ∈ p, s.width.fits v = true) → (∀ v ∈ inp, s.width.fits v = true) →
      ∃ t, hostReset s p inp = .next t ∧ t.mem.len = p.length ∧ (∀ a, a < p.length → p[a]? = some (t.mem.get a)) ∧
        t.pc = 0 ∧ t.run = .running ∧ t.fault = none ∧ t.ic = 0 ∧ t.inp = inp ∧ t.out = [] ∧ t.width = s.width) ∧
    ((∃ v ∈ p ++ inp, s.width.fits v = false) → ∀ t, hostReset s p inp ≠ .next t)

/-- R202: no state survives a reset, and memory is exactly the program, with no cell beyond it. -/
def Obligations.ResetIsComplete : Prop :=
  ∀ (s s' : State) (p inp : List Int), s.width = s'.width →
    hostReset s p inp = hostReset s' p inp ∧
    ∀ t, hostReset s p inp = .next t → t.mem.toList = p ∧ ∀ a : Int, (p.length : Int) ≤ a →
      memRead t.mem a = .error ⟨.outOfBounds, a⟩

/-- No step changes a parameter of the run: the width, the memory length and the input sequence. -/
def Obligations.RunParametersNeverChange : Prop :=
  ∀ s t : State, step s = .next t → t.width = s.width ∧ t.mem.len = s.mem.len ∧ t.inp = s.inp

/-- The whole transaction ends with a result: for every program and input of words, Execute gives the final memory or a fault
record, within the steps it makes. (What the host is given of a faulted run is decision D14, log 18.) -/
def Obligations.ExecuteAlwaysAnswers : Prop :=
  ∀ (s : State) (p inp : List Int), s.width.supported = true → (∀ v ∈ p, s.width.fits v = true) →
    (∀ v ∈ inp, s.width.fits v = true) →
    (∃ fm out, execute s p inp = some (.finished fm out) ∧ fm.length = p.length) ∨
    (∃ r out, execute s p inp = some (.failed r out))

/-! ### What each instruction does -/

/-- ADD with readable sources `a` and `b`, a readable destination `p` inside memory and a sum that is a word: `M[p] <- a + b`,
`pc <- pc + 4`, nothing else; whatever the unexamined digits, and whether or not `p` is a source or a cell of the instruction. -/
def Obligations.AddStoresSum : Prop :=
  ∀ (m0 m1 d : Digit) (x : Nat) (s : State) (a b p : Int),
    SourceIs s 0 m0 a → SourceIs s 1 m1 b → DestIs s 2 p → s.width.fits (a + b) = true → s.mem.inRange p = true →
    exec (.add m0 m1 d x) s = .next { s with mem := s.mem.set p.toNat (a + b), pc := s.pc + 4 }

/-- MUL, as ADD with the product. -/
def Obligations.MulStoresProduct : Prop :=
  ∀ (m0 m1 d : Digit) (x : Nat) (s : State) (a b p : Int),
    SourceIs s 0 m0 a → SourceIs s 1 m1 b → DestIs s 2 p → s.width.fits (a * b) = true → s.mem.inRange p = true →
    exec (.mul m0 m1 d x) s = .next { s with mem := s.mem.set p.toNat (a * b), pc := s.pc + 4 }

/-- IN with a readable destination `p` inside memory and a value `v` at the cursor: `M[p] <- v`, `ic <- ic + 1`,
`pc <- pc + 2`, nothing else. -/
def Obligations.InStoresNextInput : Prop :=
  ∀ (d : Digit) (x : Nat) (s : State) (p v : Int),
    DestIs s 0 p → s.inp[s.ic]? = some v → s.mem.inRange p = true →
    exec (.inp d x) s = .next { s with mem := s.mem.set p.toNat v, ic := s.ic + 1, pc := s.pc + 2 }

/-- R145, the whole step of OUT: its words, the value emitted and `pc + 2`, and its faults in order. -/
def Obligations.OutEmitsOperand : Prop :=
  (∀ w : Nat, w % 100 = 4 → ∃ m0 x, decode (w : Int) = .ok (.out m0 x) ∧ m0.val = w / 100 % 10) ∧
  (∀ (m0 : Digit) (x : Nat) (s : State),
    (∀ v, SourceIs s 0 m0 v → exec (.out m0 x) s = .next { s with out := s.out ++ [v], pc := s.pc + 2 }) ∧
    (2 ≤ m0.val → exec (.out m0 x) s = .next (faultedAt s .invalidParameterMode (m0.val : Int))) ∧
    (m0.val < 2 → s.mem.len ≤ s.pc + 1 → exec (.out m0 x) s = .next (faultedAt s .outOfBounds ((s.pc + 1 : Nat) : Int))) ∧
    (m0.val = 0 → s.pc + 1 < s.mem.len → s.mem.inRange (s.mem.get (s.pc + 1)) = false →
      exec (.out m0 x) s = .next (faultedAt s .outOfBounds (s.mem.get (s.pc + 1)))))

/-- HALT: `run <- Halted` and nothing else, in every state. -/
def Obligations.HaltSetsHalted : Prop :=
  ∀ (x : Nat) (s : State), exec (.halt x) s = .next { s with run := .halted }

/-! ### Where instructions fault -/

/-- A sum or product that is no word raises Overflow with the instruction word, before the destination's bounds are looked at:
the spec's decision D2 (log 7), its value decision D6 (log 10). -/
def Obligations.OverflowFaults : Prop :=
  ∀ (m0 m1 d : Digit) (x : Nat) (s : State) (a b p : Int),
    SourceIs s 0 m0 a → SourceIs s 1 m1 b → DestIs s 2 p →
    (s.width.fits (a + b) = false →
      exec (.add m0 m1 d x) s = .next (faultedAt s .overflow (encode (.add m0 m1 d x)))) ∧
    (s.width.fits (a * b) = false →
      exec (.mul m0 m1 d x) s = .next (faultedAt s .overflow (encode (.mul m0 m1 d x))))

/-- A result that is a word and a destination outside memory: OutOfBounds with the destination, nothing written. (The order
after the range test is decision D2, log 7; the value is D6, log 10.) -/
def Obligations.BadDestinationFaults : Prop :=
  ∀ (m0 m1 d : Digit) (x : Nat) (s : State) (a b p : Int),
    SourceIs s 0 m0 a → SourceIs s 1 m1 b → DestIs s 2 p → s.mem.inRange p = false →
    (s.width.fits (a + b) = true → exec (.add m0 m1 d x) s = .next (faultedAt s .outOfBounds p)) ∧
    (s.width.fits (a * b) = true → exec (.mul m0 m1 d x) s = .next (faultedAt s .outOfBounds p))

/-- The faults of ADD and MUL while their parameters are read, in order: p0's cell past the end, its dereference outside memory,
then the same of p1, then the destination's cell past the end. They hold whatever the mode digit and the cells of a later
parameter: that order is decision D5 (log 9), the values are D6 (log 10). (The mode digits' own faults are
InvalidModeDigitsFault, what follows the reads OverflowFaults and BadDestinationFaults.) -/
def Obligations.ArithmeticReadFaultsInOrder : Prop :=
  ∀ (m0 m1 d : Digit) (x : Nat) (s : State) (e : Host.Outcome State Fault Refusal),
    e = exec (.add m0 m1 d x) s ∨ e = exec (.mul m0 m1 d x) s →
    (m0.val < 2 → s.mem.len ≤ s.pc + 1 → e = .next (faultedAt s .outOfBounds ((s.pc + 1 : Nat) : Int))) ∧
    (m0.val = 0 → s.pc + 1 < s.mem.len → s.mem.inRange (rawParam s 0) = false →
      e = .next (faultedAt s .outOfBounds (rawParam s 0))) ∧
    (∀ a, SourceIs s 0 m0 a →
      (m1.val < 2 → s.mem.len ≤ s.pc + 2 → e = .next (faultedAt s .outOfBounds ((s.pc + 2 : Nat) : Int))) ∧
      (m1.val = 0 → s.pc + 2 < s.mem.len → s.mem.inRange (rawParam s 1) = false →
        e = .next (faultedAt s .outOfBounds (rawParam s 1))) ∧
      (∀ b, SourceIs s 1 m1 b → s.mem.len ≤ s.pc + 3 →
        e = .next (faultedAt s .outOfBounds ((s.pc + 3 : Nat) : Int))))

/-- IN's faults in order: its parameter cell, the exhausted input (reported before a bad destination), and a destination outside
memory, which leaves the value consumed. The order of the last two and that the take is not undone are the spec's decision
D8 (log 11); the values are D6 (log 10). -/
def Obligations.InFaultsInOrder : Prop :=
  ∀ (d : Digit) (x : Nat) (s : State),
    (s.mem.len ≤ s.pc + 1 → exec (.inp d x) s = .next (faultedAt s .outOfBounds ((s.pc + 1 : Nat) : Int))) ∧
    (s.pc + 1 < s.mem.len → s.inp.length ≤ s.ic →
      exec (.inp d x) s = .next (faultedAt s .inputExhausted (encode (.inp d x)))) ∧
    (∀ p, DestIs s 0 p → s.ic < s.inp.length → s.mem.inRange p = false →
      exec (.inp d x) s = .next (faultedAt { s with ic := s.ic + 1 } .outOfBounds p))

/-- R100: a mode digit 2 to 9 of a source parameter of a known opcode faults with that digit when the parameter is reached; IN
can never raise it. -/
def Obligations.InvalidModeDigitsFault : Prop :=
  (∀ (m0 m1 d : Digit) (x : Nat) (s : State), 2 ≤ m0.val →
    exec (.add m0 m1 d x) s = .next (faultedAt s .invalidParameterMode (m0.val : Int)) ∧
    exec (.mul m0 m1 d x) s = .next (faultedAt s .invalidParameterMode (m0.val : Int))) ∧
  (∀ (m0 m1 d : Digit) (x : Nat) (s : State) (a : Int), SourceIs s 0 m0 a → 2 ≤ m1.val →
    exec (.add m0 m1 d x) s = .next (faultedAt s .invalidParameterMode (m1.val : Int)) ∧
    exec (.mul m0 m1 d x) s = .next (faultedAt s .invalidParameterMode (m1.val : Int))) ∧
  (∀ (m0 : Digit) (x : Nat) (s : State), 2 ≤ m0.val →
    exec (.out m0 x) s = .next (faultedAt s .invalidParameterMode (m0.val : Int))) ∧
  (∀ (d : Digit) (x : Nat) (s t : State), s.run = .running → exec (.inp d x) s = .next t →
    ¬ t.endedBy .invalidParameterMode)

/-- Every cause of InvalidParameterMode, and no other: a digit 2 to 9 of a source parameter that is reached, on a word whose
opcode is 1, 2 or 4. That a bad second digit counts only after a readable first source is the spec's decision D5 (log 9). -/
def Obligations.InvalidModeCauses : Prop :=
  ∀ s t : State, step s = .next t →
    (t.endedBy .invalidParameterMode ↔ s.pc < s.mem.len ∧
      ((∃ m0 m1 d x, (decode (s.mem.get s.pc) = .ok (.add m0 m1 d x) ∨ decode (s.mem.get s.pc) = .ok (.mul m0 m1 d x)) ∧
          (2 ≤ m0.val ∨ ((∃ a, SourceIs s 0 m0 a) ∧ 2 ≤ m1.val))) ∨
       (∃ m0 x, decode (s.mem.get s.pc) = .ok (.out m0 x) ∧ 2 ≤ m0.val)))

/-- The one cause of InputExhausted: IN, its parameter cell read, finds no value at the cursor. That it is reported although the
destination may be outside memory too is the spec's decision D8 (log 11). -/
def Obligations.InputExhaustedCause : Prop :=
  ∀ s t : State, step s = .next t →
    (t.endedBy .inputExhausted ↔
      s.pc + 1 < s.mem.len ∧ s.inp.length ≤ s.ic ∧ ∃ d x, decode (s.mem.get s.pc) = .ok (.inp d x))

/-- The one cause of Overflow (decision D2, log 7): the exact sum of an ADD or product of a MUL whose three parameters
resolve is no word. -/
def Obligations.OverflowCause : Prop :=
  ∀ s t : State, step s = .next t →
    (t.endedBy .overflow ↔ s.pc < s.mem.len ∧ ∃ m0 m1 d x a b p, SourceIs s 0 m0 a ∧ SourceIs s 1 m1 b ∧ DestIs s 2 p ∧
      ((decode (s.mem.get s.pc) = .ok (.add m0 m1 d x) ∧ s.width.fits (a + b) = false) ∨
       (decode (s.mem.get s.pc) = .ok (.mul m0 m1 d x) ∧ s.width.fits (a * b) = false)))

/-- R161: every cause of OutOfBounds. First that there is no other: the index is outside [0, LEN), and it is (a) the fetch at
pc = LEN, (b) a parameter cell past the end, from LEN to LEN + 2, (c) a Position-mode source's raw value, or (d) the
destination of ADD, MUL or IN. (The premise that pc is in [0, LEN] is part of the invariant.) Then that each is one: the fetch;
and, of ADD and MUL, IN, and OUT, each read and write, where the step meets no fault of another kind (so no decision about
the order of two faults enters). -/
def Obligations.OutOfBoundsCauses : Prop :=
  (∀ (s t : State) (r : FaultRecord), s.registersBounded → step s = .next t → t.run = .faulted → t.fault = some r →
    r.kind = .outOfBounds →
    (r.value < 0 ∨ (s.mem.len : Int) ≤ r.value) ∧
    ((r.value = s.pc ∧ s.pc = s.mem.len) ∨
     (∃ i k, decode (s.mem.get s.pc) = .ok i ∧ k + 1 < i.length ∧ r.value = ((s.pc + k + 1 : Nat) : Int) ∧
        r.value ≤ s.mem.len + 2) ∨
     (∃ m0 m1 d x, (decode (s.mem.get s.pc) = .ok (.add m0 m1 d x) ∨ decode (s.mem.get s.pc) = .ok (.mul m0 m1 d x)) ∧
        ((m0.val = 0 ∧ r.value = rawParam s 0) ∨ (m1.val = 0 ∧ r.value = rawParam s 1) ∨ r.value = rawParam s 2)) ∨
     (∃ d x, decode (s.mem.get s.pc) = .ok (.inp d x) ∧ r.value = rawParam s 0) ∨
     (∃ m0 x, decode (s.mem.get s.pc) = .ok (.out m0 x) ∧ m0.val = 0 ∧ r.value = rawParam s 0))) ∧
  (∀ s : State, s.run = .running → s.pc = s.mem.len → step s = .next (faultedAt s .outOfBounds (s.pc : Int))) ∧
  (∀ (s : State) (m0 m1 d : Digit) (x : Nat), s.run = .running → s.pc < s.mem.len → m0.val < 2 → m1.val < 2 →
    (decode (s.mem.get s.pc) = .ok (.add m0 m1 d x) ∨ decode (s.mem.get s.pc) = .ok (.mul m0 m1 d x)) →
    (s.mem.len ≤ s.pc + 1 → step s = .next (faultedAt s .outOfBounds ((s.pc + 1 : Nat) : Int))) ∧
    (m0.val = 0 → s.pc + 1 < s.mem.len → s.mem.inRange (rawParam s 0) = false →
      step s = .next (faultedAt s .outOfBounds (rawParam s 0))) ∧
    (∀ a, SourceIs s 0 m0 a →
      (s.mem.len ≤ s.pc + 2 → step s = .next (faultedAt s .outOfBounds ((s.pc + 2 : Nat) : Int))) ∧
      (m1.val = 0 → s.pc + 2 < s.mem.len → s.mem.inRange (rawParam s 1) = false →
        step s = .next (faultedAt s .outOfBounds (rawParam s 1))) ∧
      (∀ b, SourceIs s 1 m1 b →
        (s.mem.len ≤ s.pc + 3 → step s = .next (faultedAt s .outOfBounds ((s.pc + 3 : Nat) : Int))) ∧
        (∀ p, DestIs s 2 p → s.mem.inRange p = false →
          (decode (s.mem.get s.pc) = .ok (.add m0 m1 d x) → s.width.fits (a + b) = true) →
          (decode (s.mem.get s.pc) = .ok (.mul m0 m1 d x) → s.width.fits (a * b) = true) →
          step s = .next (faultedAt s .outOfBounds p))))) ∧
  (∀ (s : State) (d : Digit) (x : Nat), s.run = .running → s.pc < s.mem.len →
    decode (s.mem.get s.pc) = .ok (.inp d x) →
    (s.mem.len ≤ s.pc + 1 → step s = .next (faultedAt s .outOfBounds ((s.pc + 1 : Nat) : Int))) ∧
    (∀ p, DestIs s 0 p → s.ic < s.inp.length → s.mem.inRange p = false →
      ∃ t, step s = .next t ∧ t.run = .faulted ∧ t.fault = some ⟨.outOfBounds, s.pc, p⟩)) ∧
  (∀ (s : State) (m0 : Digit) (x : Nat), s.run = .running → s.pc < s.mem.len → m0.val < 2 →
    decode (s.mem.get s.pc) = .ok (.out m0 x) →
    (s.mem.len ≤ s.pc + 1 → step s = .next (faultedAt s .outOfBounds ((s.pc + 1 : Nat) : Int))) ∧
    (m0.val = 0 → s.pc + 1 < s.mem.len → s.mem.inRange (rawParam s 0) = false →
      step s = .next (faultedAt s .outOfBounds (rawParam s 0))))

/-- Faults are precise: a faulting step leaves every other piece of state as it was, but for IN's failed write, which leaves the
cursor advanced (decision D8, log 11). -/
def Obligations.FaultsArePrecise : Prop :=
  ∀ s t : State, step s = .next t → t.run = .faulted →
    (∃ k v, t = faultedAt s k v) ∨
    (∃ d x p, decode (s.mem.get s.pc) = .ok (.inp d x) ∧ DestIs s 0 p ∧ s.mem.inRange p = false ∧
      s.ic < s.inp.length ∧ t = faultedAt { s with ic := s.ic + 1 } .outOfBounds p)

/-! ### Frames -/

/-- What ADD and MUL leave: the width, the input, the cursor, the output, the memory length; every cell but the one at the
destination address their meaning computes; every cell, if that address cannot be read; and run and fault, unless a fault
is taken, which leaves all of memory and pc as well. -/
def Obligations.ArithmeticFrame : Prop :=
  ∀ (m0 m1 d : Digit) (x : Nat) (s t : State),
    exec (.add m0 m1 d x) s = .next t ∨ exec (.mul m0 m1 d x) s = .next t →
    t.width = s.width ∧ t.inp = s.inp ∧ t.ic = s.ic ∧ t.out = s.out ∧ t.mem.len = s.mem.len ∧
    (∀ p, resolveParam addDescriptor s 2 d = .ok p → ∀ a : Nat, (a : Int) ≠ p → t.mem.get a = s.mem.get a) ∧
    (∀ e, resolveParam addDescriptor s 2 d = .error e → ∀ a, t.mem.get a = s.mem.get a) ∧
    ((t.run = s.run ∧ t.fault = s.fault) ∨ (t.run = .faulted ∧ t.mem = s.mem ∧ t.pc = s.pc))

/-- What IN leaves: as ADD and MUL, but that the cursor may move by one. -/
def Obligations.InFrame : Prop :=
  ∀ (d : Digit) (x : Nat) (s t : State), exec (.inp d x) s = .next t →
    t.width = s.width ∧ t.inp = s.inp ∧ (t.ic = s.ic ∨ t.ic = s.ic + 1) ∧ t.out = s.out ∧ t.mem.len = s.mem.len ∧
    (∀ p, resolveParam inDescriptor s 0 d = .ok p → ∀ a : Nat, (a : Int) ≠ p → t.mem.get a = s.mem.get a) ∧
    (∀ e, resolveParam inDescriptor s 0 d = .error e → ∀ a, t.mem.get a = s.mem.get a) ∧
    ((t.run = s.run ∧ t.fault = s.fault) ∨ (t.run = .faulted ∧ t.mem = s.mem ∧ t.pc = s.pc))

/-- What OUT leaves: everything but the output, pc, and, where a fault is taken, run and fault; every cell of memory. -/
def Obligations.OutFrame : Prop :=
  ∀ (m0 : Digit) (x : Nat) (s t : State), exec (.out m0 x) s = .next t →
    t.width = s.width ∧ t.inp = s.inp ∧ t.ic = s.ic ∧ t.mem.len = s.mem.len ∧ (∀ a, t.mem.get a = s.mem.get a) ∧
    ((t.run = s.run ∧ t.fault = s.fault) ∨ (t.run = .faulted ∧ t.out = s.out ∧ t.pc = s.pc))

/-- What HALT leaves: everything but run; every cell of memory. -/
def Obligations.HaltFrame : Prop :=
  ∀ (x : Nat) (s t : State), exec (.halt x) s = .next t →
    t.width = s.width ∧ t.inp = s.inp ∧ t.ic = s.ic ∧ t.out = s.out ∧ t.pc = s.pc ∧ t.fault = s.fault ∧
    t.mem.len = s.mem.len ∧ ∀ a, t.mem.get a = s.mem.get a

/-! ### The channels -/

/-- R141: NextInput at the end of the input raises InputExhausted with the instruction word; else it delivers the value at the
cursor and moves the cursor by one; and only an IN moves it, so values go out in order and once each. -/
def Obligations.InputConsumedInOrder : Prop :=
  (∀ (w : Int) (s : State), s.inp.length ≤ s.ic → nextInput w s = .error ⟨.inputExhausted, w⟩) ∧
  (∀ (w v : Int) (s : State), s.inp[s.ic]? = some v → nextInput w s = .ok (v, { s with ic := s.ic + 1 })) ∧
  (∀ s t : State, step s = .next t → t.ic = s.ic ∨
    (t.ic = s.ic + 1 ∧ s.ic < s.inp.length ∧ ∃ d x, decode (s.mem.get s.pc) = .ok (.inp d x)))

/-- R144: Emit appends the value and does nothing else; a step leaves the output as it was or is an OUT that appended its one
operand. -/
def Obligations.OutputIsAppendOnly : Prop :=
  (∀ (v : Int) (s : State), emit v s = { s with out := s.out ++ [v] }) ∧
  (∀ s t : State, step s = .next t → t.out = s.out ∨
    ∃ m0 x v, decode (s.mem.get s.pc) = .ok (.out m0 x) ∧ SourceIs s 0 m0 v ∧ t.out = s.out ++ [v])

/-- Nothing in the core reads the output (spec/10_state.md section 8) or the fault record (section 5, R27 and R28): a step from
a state with any other ones does the same, appends the same values, writes the same record where it faults and leaves the
record where it does not. -/
def Obligations.OutputIsNeverRead : Prop :=
  ∀ s t : State, step s = .next t → ∃ e, t.out = s.out ++ e ∧
    ∀ (o : List Int) (f : Option FaultRecord),
      step { s with out := o, fault := f } =
        .next { t with out := o ++ e, fault := if t.run = .faulted then t.fault else f }

/-- R37: IN never touches the output; OUT never touches the cursor or memory. -/
def Obligations.ChannelsAreIndependent : Prop :=
  (∀ (d : Digit) (x : Nat) (s t : State), exec (.inp d x) s = .next t → t.out = s.out) ∧
  (∀ (m0 : Digit) (x : Nat) (s t : State), exec (.out m0 x) s = .next t → t.ic = s.ic ∧ t.mem = s.mem)

/-! ### Self-modifying code and unexamined digits -/

/-- A store into the very next instruction word is what the next step fetches: by ADD and MUL four cells on, by IN two. -/
def Obligations.StoreSeenByNextFetch : Prop :=
  (∀ (m0 m1 d : Digit) (x : Nat) (s : State) (a b : Int),
    SourceIs s 0 m0 a → SourceIs s 1 m1 b → DestIs s 2 ((s.pc + 4 : Nat) : Int) → s.pc + 4 < s.mem.len →
    (s.width.fits (a + b) = true → ∃ t, exec (.add m0 m1 d x) s = .next t ∧ fetch t = .ok (a + b)) ∧
    (s.width.fits (a * b) = true → ∃ t, exec (.mul m0 m1 d x) s = .next t ∧ fetch t = .ok (a * b))) ∧
  (∀ (d : Digit) (x : Nat) (s : State) (v : Int),
    DestIs s 0 ((s.pc + 2 : Nat) : Int) → s.pc + 2 < s.mem.len → s.inp[s.ic]? = some v →
    ∃ t, exec (.inp d x) s = .next t ∧ fetch t = .ok v)

/-- The digits that are not examined have no effect: with any others the instruction does the same, but that the value of the
fault record of an Overflow or InputExhausted is the instruction word itself (decision D6, log 10). -/
def Obligations.UnexaminedDigitsIgnored : Prop :=
  ∀ (i j : Instr) (s t : State),
    i.sameExamined j →
    exec i s = .next t →
    ∃ f, exec j s = .next { t with fault := f } ∧
      (t.run ≠ .faulted → f = t.fault) ∧ f.map FaultRecord.kind = t.fault.map FaultRecord.kind ∧
      f.map FaultRecord.pc = t.fault.map FaultRecord.pc
end

