-- ==== Sys2Proof/Laws/Decode.lean ====
section
/-! SUPPORT. The decimal fields as arithmetic. -/

namespace Sys2Proof

@[simp] theorem digit_val (w k : Nat) : (digit w k).val = w / 10 ^ k % 10 := by simp [digit]

/-- The table, opcode by opcode. -/
theorem lookup_some {op : Nat} {d : Descriptor} :
    lookup op = some d ↔ (op = 1 ∧ d = addDescriptor) ∨ (op = 2 ∧ d = mulDescriptor) ∨
      (op = 3 ∧ d = inDescriptor) ∨ (op = 4 ∧ d = outDescriptor) := by
  have e1 : addDescriptor.opcode = 1 := rfl
  have e2 : mulDescriptor.opcode = 2 := rfl
  have e3 : inDescriptor.opcode = 3 := rfl
  have e4 : outDescriptor.opcode = 4 := rfl
  by_cases h1 : op = 1
  · subst h1; simp [lookup, iset, e1, eq_comm]
  by_cases h2 : op = 2
  · subst h2; simp [lookup, iset, e1, e2, eq_comm]
  by_cases h3 : op = 3
  · subst h3; simp [lookup, iset, e1, e2, e3, eq_comm]
  by_cases h4 : op = 4
  · subst h4; simp [lookup, iset, e1, e2, e3, e4, eq_comm]
  · simp [lookup, iset, e1, e2, e3, e4, h1, h2, h3, h4, Ne.symm h1, Ne.symm h2, Ne.symm h3, Ne.symm h4]

theorem decode_neg {w : Int} (h : w < 0) : decode w = .error .negativeWord := by simp [decode, h]

theorem decode_halt {n : Nat} (h : n % 100 = 99) : decode (n : Int) = .ok (.halt (n / 100)) := by
  have h0 : ¬ ((n : Int) < 0) := by omega
  simp [decode, h0, decodeOpcode, haltOpcode, h]

theorem decode_of_lookup {n : Nat} {d : Descriptor} (h : lookup (n % 100) = some d) :
    decode (n : Int) = .ok (fieldsOf d.handler n) := by
  have h0 : ¬ ((n : Int) < 0) := by omega
  have h99 : n % 100 ≠ 99 := by
    rcases lookup_some.1 h with ⟨h, -⟩ | ⟨h, -⟩ | ⟨h, -⟩ | ⟨h, -⟩ <;> omega
  simp [decode, h0, decodeOpcode, haltOpcode, h99, h]

theorem decode_unregistered {n : Nat} (h99 : n % 100 ≠ 99) (h : lookup (n % 100) = none) :
    decode (n : Int) = .error (.unregisteredOpcode (n % 100)) := by
  have h0 : ¬ ((n : Int) < 0) := by omega
  simp [decode, h0, decodeOpcode, haltOpcode, h99, h]

end Sys2Proof
end

