-- ==== Sys2Proof/Laws/Memory.lean ====
section
/-! SUPPORT. The laws of memory: a read after a write, the other cells, the canonical form, and the memory a program
becomes. The read laws hold of every list, canonical or not. -/

namespace Sys2Proof.Machine

/-! ### The list of cells -/

@[simp] theorem lookCell_nil (a : Nat) : lookCell [] a = unlisted := rfl

theorem lookCell_dropCell_same (l : List Cell) (a : Nat) : lookCell (dropCell l a) a = unlisted := by
  induction l with
  | nil => rfl
  | cons c t ih =>
    by_cases h : c.1 = a
    · simpa [dropCell, h] using ih
    · simpa [dropCell, h, lookCell] using ih

theorem lookCell_dropCell_other (l : List Cell) {a b : Nat} (hne : b ≠ a) :
    lookCell (dropCell l a) b = lookCell l b := by
  induction l with
  | nil => rfl
  | cons c t ih =>
    by_cases h : c.1 = a
    · have hb : c.1 ≠ b := fun e => hne (e ▸ h)
      simpa [dropCell, h, lookCell, hb, Ne.symm hne] using ih
    · by_cases hb : c.1 = b
      · simp [dropCell, lookCell, hb, hne]
      · simpa [dropCell, h, lookCell, hb] using ih

theorem lookCell_insertCell_same (l : List Cell) (a : Nat) (v : Int) (h : ∀ c ∈ l, c.1 ≠ a) :
    lookCell (insertCell a v l) a = v := by
  induction l with
  | nil => simp [insertCell, lookCell]
  | cons c t ih =>
    have hc : c.1 ≠ a := h c (by simp)
    by_cases hlt : a < c.1
    · simp [insertCell, hlt, lookCell]
    · simpa [insertCell, hlt, lookCell, hc] using ih fun d hd => h d (by simp [hd])

theorem lookCell_insertCell_other (l : List Cell) (a : Nat) (v : Int) {b : Nat} (hne : b ≠ a) :
    lookCell (insertCell a v l) b = lookCell l b := by
  induction l with
  | nil => simp [insertCell, lookCell, Ne.symm hne]
  | cons c t ih =>
    by_cases hlt : a < c.1
    · simp [insertCell, hlt, lookCell, Ne.symm hne]
    · simp [insertCell, hlt, lookCell, ih]

theorem mem_dropCell {l : List Cell} {a : Nat} {c : Cell} : c ∈ dropCell l a ↔ c ∈ l ∧ c.1 ≠ a := by
  simp [dropCell]

theorem mem_insertCell {l : List Cell} {a : Nat} {v : Int} {c : Cell} :
    c ∈ insertCell a v l ↔ c = (a, v) ∨ c ∈ l := by
  induction l with
  | nil => simp [insertCell]
  | cons d t ih =>
    by_cases hlt : a < d.1
    · simp [insertCell, hlt]
    · simp [insertCell, hlt, ih]
      tauto

theorem lookCell_setCell_same (l : List Cell) (a : Nat) (v : Int) : lookCell (setCell l a v) a = v := by
  by_cases h : v = unlisted
  · simp [setCell, h, lookCell_dropCell_same]
  · simpa [setCell, h] using lookCell_insertCell_same _ a v fun c hc => (mem_dropCell.1 hc).2

theorem lookCell_setCell_other (l : List Cell) (a : Nat) (v : Int) {b : Nat} (hne : b ≠ a) :
    lookCell (setCell l a v) b = lookCell l b := by
  by_cases h : v = unlisted
  · simpa [setCell, h] using lookCell_dropCell_other l hne
  · simpa [setCell, h, lookCell_insertCell_other _ a v hne] using lookCell_dropCell_other l hne

/-! ### Canonical lists -/

theorem pairwise_dropCell {l : List Cell} (a : Nat) (h : l.Pairwise fun c d => c.1 < d.1) :
    (dropCell l a).Pairwise fun c d => c.1 < d.1 := h.filter _

theorem pairwise_insertCell {l : List Cell} (a : Nat) (v : Int) (hl : l.Pairwise fun c d => c.1 < d.1)
    (hne : ∀ c ∈ l, c.1 ≠ a) : (insertCell a v l).Pairwise fun c d => c.1 < d.1 := by
  induction l with
  | nil => simp [insertCell]
  | cons c t ih =>
    rw [List.pairwise_cons] at hl
    by_cases hlt : a < c.1
    · rw [insertCell, if_pos hlt]
      refine List.pairwise_cons.2 ⟨fun d hd => ?_, List.pairwise_cons.2 hl⟩
      rcases List.mem_cons.1 hd with rfl | hd
      · exact hlt
      · exact hlt.trans (hl.1 d hd)
    · rw [insertCell, if_neg hlt]
      refine List.pairwise_cons.2 ⟨fun d hd => ?_, ih hl.2 fun d hd => hne d (by simp [hd])⟩
      rcases mem_insertCell.1 hd with rfl | hd
      · exact lt_of_le_of_ne (not_lt.1 hlt) (hne c (by simp))
      · exact hl.1 d hd

theorem pairwise_setCell {l : List Cell} (a : Nat) (v : Int) (hl : l.Pairwise fun c d => c.1 < d.1) :
    (setCell l a v).Pairwise fun c d => c.1 < d.1 := by
  by_cases h : v = unlisted
  · simpa [setCell, h] using pairwise_dropCell a hl
  · simpa [setCell, h] using
      pairwise_insertCell a v (pairwise_dropCell a hl) fun c hc => (mem_dropCell.1 hc).2

theorem mem_setCell {l : List Cell} {a : Nat} {v : Int} {c : Cell} (h : c ∈ setCell l a v) :
    (c = (a, v) ∧ v ≠ unlisted) ∨ c ∈ l := by
  by_cases hv : v = unlisted
  · exact .inr (mem_dropCell.1 (by simpa [setCell, hv] using h)).1
  · rcases mem_insertCell.1 (by simpa [setCell, hv] using h) with h | h
    · exact .inl ⟨h, hv⟩
    · exact .inr (mem_dropCell.1 h).1

/-! ### Memory -/

@[simp] theorem Memory.set_len (m : Memory) (a : Nat) (v : Int) : (m.set a v).len = m.len := rfl

/-- A read after a write to the same cell gives the value written. -/
@[simp] theorem Memory.get_set_same (m : Memory) (a : Nat) (v : Int) : (m.set a v).get a = v :=
  lookCell_setCell_same m.cells a v

/-- A write leaves every other cell alone. -/
theorem Memory.get_set_other (m : Memory) {a b : Nat} (v : Int) (h : b ≠ a) : (m.set a v).get b = m.get b :=
  lookCell_setCell_other m.cells a v h

/-- A write inside memory keeps the canonical form. -/
theorem Memory.wf_set {m : Memory} {a : Nat} (v : Int) (h : m.wf) (ha : a < m.len) : (m.set a v).wf := by
  refine ⟨pairwise_setCell a v h.1, fun c hc => ?_⟩
  rcases mem_setCell hc with ⟨rfl, hv⟩ | hc
  · exact ⟨ha, hv⟩
  · exact h.2 c hc

/-- Canonical memories of one length that read alike are the same data. -/
theorem Memory.eq_of_get {m m' : Memory} (h : m.wf) (h' : m'.wf) (hlen : m.len = m'.len)
    (hget : ∀ a, m.get a = m'.get a) : m = m' := by
  have key : ∀ l l' : List Cell, l.Pairwise (fun c d => c.1 < d.1) → l'.Pairwise (fun c d => c.1 < d.1) →
      (∀ c ∈ l, c.2 ≠ unlisted) → (∀ c ∈ l', c.2 ≠ unlisted) →
      (∀ a, lookCell l a = lookCell l' a) → l = l' := by
    have below : ∀ (l : List Cell) (a : Nat), (∀ c ∈ l, a < c.1) → lookCell l a = unlisted := by
      intro l a hl
      induction l with
      | nil => rfl
      | cons c t ih =>
        have : c.1 ≠ a := (hl c (by simp)).ne'
        simpa [lookCell, this] using ih fun d hd => hl d (by simp [hd])
    intro l
    induction l with
    | nil =>
      intro l' _ _ _ hn' heq
      cases l' with
      | nil => rfl
      | cons c t => exact absurd (by simpa [lookCell] using (heq c.1).symm) (hn' c (by simp))
    | cons c t ih =>
      intro l' hp hp' hn hn' heq
      cases l' with
      | nil => exact absurd (by simpa [lookCell] using heq c.1) (hn c (by simp))
      | cons c' t' =>
        rw [List.pairwise_cons] at hp hp'
        have h1 : c.1 = c'.1 := by
          by_contra hne
          rcases lt_or_gt_of_ne hne with hlt | hlt
          · have := heq c.1
            rw [below (c' :: t') c.1 (by
              intro d hd
              rcases List.mem_cons.1 hd with rfl | hd
              · exact hlt
              · exact hlt.trans (hp'.1 d hd))] at this
            exact hn c (by simp) (by simpa [lookCell] using this)
          · have := heq c'.1
            rw [below (c :: t) c'.1 (by
              intro d hd
              rcases List.mem_cons.1 hd with rfl | hd
              · exact hlt
              · exact hlt.trans (hp.1 d hd))] at this
            exact hn' c' (by simp) (by simpa [lookCell] using this.symm)
        have h2 : c.2 = c'.2 := by simpa [lookCell, h1] using heq c.1
        have ht : t = t' := by
          refine ih t' hp.2 hp'.2 (fun d hd => hn d (by simp [hd])) (fun d hd => hn' d (by simp [hd])) fun a => ?_
          by_cases ha : c.1 = a
          · rw [below t a fun d hd => ha ▸ hp.1 d hd, below t' a fun d hd => ha ▸ h1 ▸ hp'.1 d hd]
          · have := heq a
            simpa [lookCell, ha, h1 ▸ ha] using this
        rw [ht, Prod.ext h1 h2]
  obtain ⟨n, l⟩ := m
  obtain ⟨n', l'⟩ := m'
  obtain rfl : n = n' := hlen
  rw [key l l' h.1 h'.1 (fun c hc => (h.2 c hc).2) (fun c hc => (h'.2 c hc).2) hget]

/-! ### The memory a program becomes -/

theorem listCells_lookCell (p : List Int) (a b : Nat) :
    lookCell (listCells a p) b = if a ≤ b then p.getD (b - a) unlisted else unlisted := by
  induction p generalizing a with
  | nil => simp [listCells]
  | cons v t ih =>
    have step : lookCell (listCells a (v :: t)) b = if b = a then v else lookCell (listCells (a + 1) t) b := by
      by_cases hv : v = unlisted
      · by_cases hb : b = a
        · have h1 : ¬ a + 1 ≤ b := by omega
          rw [if_pos hb, listCells, if_pos hv, ih, if_neg h1, hv]
        · simp [listCells, hv, hb]
      · by_cases hb : a = b
        · simp [listCells, hv, hb, lookCell]
        · simp [listCells, hv, hb, Ne.symm hb, lookCell]
    rw [step, ih]
    by_cases hb : b = a
    · simp [hb]
    · by_cases hle : a ≤ b
      · have : b - a = b - (a + 1) + 1 := by omega
        have h1 : a + 1 ≤ b := by omega
        simp [hb, hle, this, h1]
      · have h1 : ¬ a + 1 ≤ b := by omega
        simp [hb, hle, h1]

theorem listCells_bounds (p : List Int) (a : Nat) :
    ∀ c ∈ listCells a p, a ≤ c.1 ∧ c.1 < a + p.length ∧ c.2 ≠ unlisted := by
  induction p generalizing a with
  | nil => simp [listCells]
  | cons v t ih =>
    intro c hc
    by_cases hv : v = unlisted
    · obtain ⟨h1, h2, h3⟩ := ih (a + 1) c (by simpa [listCells, hv] using hc)
      exact ⟨by omega, by simp; omega, h3⟩
    · rcases (by simpa [listCells, hv] using hc : c = (a, v) ∨ c ∈ listCells (a + 1) t) with rfl | hc
      · simp [hv]
      · obtain ⟨h1, h2, h3⟩ := ih (a + 1) c hc
        exact ⟨by omega, by simp; omega, h3⟩

theorem listCells_pairwise (p : List Int) (a : Nat) : (listCells a p).Pairwise fun c d => c.1 < d.1 := by
  induction p generalizing a with
  | nil => simp [listCells]
  | cons v t ih =>
    by_cases hv : v = unlisted
    · simpa [listCells, hv] using ih (a + 1)
    · rw [listCells, if_neg hv]
      refine List.pairwise_cons.2 ⟨fun c hc => ?_, ih (a + 1)⟩
      have := (listCells_bounds t (a + 1) c hc).1
      simp only
      omega

@[simp] theorem Memory.ofList_len (p : List Int) : (Memory.ofList p).len = p.length := rfl

/-- Cell `a` of the loaded memory is word `a` of the program. -/
theorem Memory.ofList_get (p : List Int) (a : Nat) : (Memory.ofList p).get a = p.getD a unlisted := by
  simpa [Memory.ofList, Memory.get] using listCells_lookCell p 0 a

/-- The loaded memory is canonical. -/
theorem Memory.wf_ofList (p : List Int) : (Memory.ofList p).wf := by
  refine ⟨listCells_pairwise p 0, fun c hc => ?_⟩
  obtain ⟨-, h2, h3⟩ := listCells_bounds p 0 c hc
  exact ⟨by simpa using h2, h3⟩

/-- Collecting a loaded memory gives the program back. -/
theorem Memory.toList_ofList (p : List Int) : (Memory.ofList p).toList = p := by
  refine List.ext_getElem (by simp [Memory.toList]) fun a h1 h2 => ?_
  simp [Memory.toList, Memory.ofList_get, h2]

/-! ### Placing words -/

theorem placeCells_wf (ws : List Int) (l : List Cell) (a n : Nat) (hl : l.Pairwise fun c d => c.1 < d.1)
    (hb : ∀ c ∈ l, c.1 < n ∧ c.2 ≠ unlisted) (hn : a + ws.length ≤ n) :
    (placeCells l a ws).Pairwise (fun c d => c.1 < d.1) ∧ ∀ c ∈ placeCells l a ws, c.1 < n ∧ c.2 ≠ unlisted := by
  induction ws generalizing l a with
  | nil => exact ⟨hl, hb⟩
  | cons v t ih =>
    simp only [List.length_cons] at hn
    refine ih (setCell l a v) (a + 1) (pairwise_setCell a v hl) (fun c hc => ?_) (by omega)
    rcases mem_setCell hc with ⟨rfl, hv⟩ | hc
    · exact ⟨by simp only; omega, hv⟩
    · exact hb c hc

/-- Placing words keeps the canonical form. -/
theorem Memory.wf_place {m : Memory} (a : Nat) (ws : List Int) (h : m.wf) : (m.place a ws).wf :=
  placeCells_wf ws m.cells a _ h.1 (fun c hc => ⟨(h.2 c hc).1.trans_le (Nat.le_max_left _ _), (h.2 c hc).2⟩)
    (Nat.le_max_right _ _)

theorem lookCell_placeCells_below (ws : List Int) (l : List Cell) {a b : Nat} (h : b < a) :
    lookCell (placeCells l a ws) b = lookCell l b := by
  induction ws generalizing l a with
  | nil => rfl
  | cons v t ih =>
    rw [placeCells, ih _ (by omega), lookCell_setCell_other l a v (by omega)]

/-- The first placed word is read back at its address. -/
theorem Memory.place_get_first (m : Memory) (a : Nat) (v : Int) (t : List Int) :
    (m.place a (v :: t)).get a = v := by
  simp [Memory.place, Memory.get, placeCells, lookCell_placeCells_below, lookCell_setCell_same]

/-- The memory after reset is canonical. -/
theorem reset_mem_wf : State.reset.mem.wf := by decide

end Sys2Proof.Machine
end

