-- ==== Sys2Proof/Laws/State.lean ====
section
/-! SUPPORT. One lemma per field of State per state operation, so that no later proof unfolds a record update. -/

namespace Sys2Proof.Machine

section
variable (r : Raise) (s : State)

@[simp] theorem takeFault_width : (takeFault r s).width = s.width := rfl
@[simp] theorem takeFault_mem : (takeFault r s).mem = s.mem := rfl
@[simp] theorem takeFault_pc : (takeFault r s).pc = s.pc := rfl
@[simp] theorem takeFault_run : (takeFault r s).run = .faulted := rfl
@[simp] theorem takeFault_fault : (takeFault r s).fault = some ⟨r.kind, s.pc, r.value⟩ := rfl
@[simp] theorem takeFault_ic : (takeFault r s).ic = s.ic := rfl
@[simp] theorem takeFault_inp : (takeFault r s).inp = s.inp := rfl
@[simp] theorem takeFault_out : (takeFault r s).out = s.out := rfl

end

section
variable (d : Descriptor) (s : State)

@[simp] theorem advance_width : (advance d s).width = s.width := rfl
@[simp] theorem advance_mem : (advance d s).mem = s.mem := rfl
@[simp] theorem advance_pc : (advance d s).pc = s.pc + (d.parameterCount + 1) := rfl
@[simp] theorem advance_run : (advance d s).run = s.run := rfl
@[simp] theorem advance_fault : (advance d s).fault = s.fault := rfl
@[simp] theorem advance_ic : (advance d s).ic = s.ic := rfl
@[simp] theorem advance_inp : (advance d s).inp = s.inp := rfl
@[simp] theorem advance_out : (advance d s).out = s.out := rfl

end

section
variable (s : State)

@[simp] theorem haltRun_width : (haltRun s).width = s.width := rfl
@[simp] theorem haltRun_mem : (haltRun s).mem = s.mem := rfl
@[simp] theorem haltRun_pc : (haltRun s).pc = s.pc := rfl
@[simp] theorem haltRun_run : (haltRun s).run = .halted := rfl
@[simp] theorem haltRun_fault : (haltRun s).fault = s.fault := rfl
@[simp] theorem haltRun_ic : (haltRun s).ic = s.ic := rfl
@[simp] theorem haltRun_inp : (haltRun s).inp = s.inp := rfl
@[simp] theorem haltRun_out : (haltRun s).out = s.out := rfl

end

section
variable (m : Memory) (s : State)

@[simp] theorem setMem_width : (setMem m s).width = s.width := rfl
@[simp] theorem setMem_mem : (setMem m s).mem = m := rfl
@[simp] theorem setMem_pc : (setMem m s).pc = s.pc := rfl
@[simp] theorem setMem_run : (setMem m s).run = s.run := rfl
@[simp] theorem setMem_fault : (setMem m s).fault = s.fault := rfl
@[simp] theorem setMem_ic : (setMem m s).ic = s.ic := rfl
@[simp] theorem setMem_inp : (setMem m s).inp = s.inp := rfl
@[simp] theorem setMem_out : (setMem m s).out = s.out := rfl

end

section
variable (s : State)

@[simp] theorem moveCursor_width : (moveCursor s).width = s.width := rfl
@[simp] theorem moveCursor_mem : (moveCursor s).mem = s.mem := rfl
@[simp] theorem moveCursor_pc : (moveCursor s).pc = s.pc := rfl
@[simp] theorem moveCursor_run : (moveCursor s).run = s.run := rfl
@[simp] theorem moveCursor_fault : (moveCursor s).fault = s.fault := rfl
@[simp] theorem moveCursor_ic : (moveCursor s).ic = s.ic + 1 := rfl
@[simp] theorem moveCursor_inp : (moveCursor s).inp = s.inp := rfl
@[simp] theorem moveCursor_out : (moveCursor s).out = s.out := rfl

end

section
variable (v : Int) (s : State)

@[simp] theorem emit_width : (emit v s).width = s.width := rfl
@[simp] theorem emit_mem : (emit v s).mem = s.mem := rfl
@[simp] theorem emit_pc : (emit v s).pc = s.pc := rfl
@[simp] theorem emit_run : (emit v s).run = s.run := rfl
@[simp] theorem emit_fault : (emit v s).fault = s.fault := rfl
@[simp] theorem emit_ic : (emit v s).ic = s.ic := rfl
@[simp] theorem emit_inp : (emit v s).inp = s.inp := rfl
@[simp] theorem emit_out : (emit v s).out = s.out ++ [v] := rfl

end

end Sys2Proof.Machine
end

