-- ==== Sys2Proof/Laws/Ops.lean ====
section
/-! SUPPORT. One lemma per shared operation that says everything it can answer. -/

namespace Sys2Proof.Machine

/-! ### Going on or taking the fault -/

@[simp] theorem attempt_ok {α : Type} (s : State) (v : α) (k : α → Host.Outcome State Fault Refusal) :
    attempt s (.ok v) k = k v := rfl

@[simp] theorem attempt_error {α : Type} (s : State) (r : Raise) (k : α → Host.Outcome State Fault Refusal) :
    attempt s (.error r) k = .next (takeFault r s) := rfl

theorem attempt_next {α : Type} {s t : State} {x : Except Raise α} {k : α → Host.Outcome State Fault Refusal} :
    attempt s x k = .next t ↔
      (∃ r, x = .error r ∧ t = takeFault r s) ∨ (∃ v, x = .ok v ∧ k v = .next t) := by
  cases x <;> simp [eq_comm]

/-- Taking a fault, in the words of the statements. -/
theorem takeFault_eq (s : State) (k : FaultKind) (v : Int) : takeFault ⟨k, v⟩ s = faultedAt s k v := rfl

@[simp] theorem endedBy_takeFault {s : State} {r : Raise} {k : FaultKind} :
    (takeFault r s).endedBy k ↔ r.kind = k := by
  simp [State.endedBy]

theorem not_endedBy {s : State} {k : FaultKind} (h : s.run ≠ .faulted) : ¬ s.endedBy k := fun h' => h h'.1

/-! ### Memory accesses -/

theorem memRead_ok {m : Memory} {a : Int} {v : Int} :
    memRead m a = .ok v ↔ m.inRange a ∧ v = m.get a.toNat := by
  by_cases h : m.inRange a <;> simp [memRead, h, eq_comm]

theorem memRead_error {m : Memory} {a : Int} {r : Raise} :
    memRead m a = .error r ↔ ¬ m.inRange a ∧ r = ⟨.outOfBounds, a⟩ := by
  by_cases h : m.inRange a <;> simp [memRead, h, eq_comm]

theorem memWrite_ok {m m' : Memory} {a : Int} {v : Int} :
    memWrite m a v = .ok m' ↔ m.inRange a ∧ m' = m.set a.toNat v := by
  by_cases h : m.inRange a <;> simp [memWrite, h, eq_comm]

theorem memWrite_error {m : Memory} {a : Int} {v : Int} {r : Raise} :
    memWrite m a v = .error r ↔ ¬ m.inRange a ∧ r = ⟨.outOfBounds, a⟩ := by
  by_cases h : m.inRange a <;> simp [memWrite, h, eq_comm]

theorem inRange_iff {m : Memory} {a : Int} : m.inRange a = true ↔ 0 ≤ a ∧ a < m.len := by
  simp [Memory.inRange]

theorem inRange_nat {m : Memory} {n : Nat} : m.inRange (n : Int) = true ↔ n < m.len := by
  simp [Memory.inRange]

theorem fetch_ok {s : State} {w : Int} : fetch s = .ok w ↔ s.pc < s.mem.len ∧ w = s.mem.get s.pc := by
  simp [fetch, memRead_ok, inRange_nat]

theorem fetch_error {s : State} {r : Raise} :
    fetch s = .error r ↔ s.mem.len ≤ s.pc ∧ r = ⟨.outOfBounds, (s.pc : Int)⟩ := by
  rw [fetch, memRead_error, inRange_nat, not_lt]

/-! ### Operands -/

theorem memRead_paramAddr_ok {s : State} {i : Nat} {v : Int} :
    memRead s.mem (paramAddr s i) = .ok v ↔ s.pc + i + 1 < s.mem.len ∧ v = rawParam s i := by
  rw [memRead_ok, paramAddr, inRange_nat]
  rfl

theorem memRead_paramAddr_error {s : State} {i : Nat} {r : Raise} :
    memRead s.mem (paramAddr s i) = .error r ↔
      ¬ s.pc + i + 1 < s.mem.len ∧ r = ⟨.outOfBounds, paramAddr s i⟩ := by
  rw [memRead_error, paramAddr, inRange_nat]

theorem modeOfDigit_cases (dg : Digit) :
    (dg.val = 0 ∧ modeOfDigit dg = some .position) ∨ (dg.val = 1 ∧ modeOfDigit dg = some .immediate) ∨
      (2 ≤ dg.val ∧ modeOfDigit dg = none) := by
  revert dg
  decide

/-- A source parameter resolves to exactly the value `SourceIs` says. -/
theorem resolveSource_ok {d : Descriptor} {s : State} {i : Nat} {dg : Digit} {v : Int}
    (hi : i ∉ d.writeParameterIndices) : resolveParam d s i dg = .ok v ↔ SourceIs s i dg v := by
  rw [resolveParam, if_neg hi, SourceIs]
  rcases modeOfDigit_cases dg with ⟨h, hm⟩ | ⟨h, hm⟩ | ⟨h, hm⟩
  · rw [hm]
    simp only [operand, h]
    cases hr : memRead s.mem (paramAddr s i) with
    | error r =>
      have := (memRead_paramAddr_error.1 hr).1
      simp [this]
    | ok r =>
      obtain ⟨h1, rfl⟩ := memRead_paramAddr_ok.1 hr
      simp [memRead_ok, h1]
  · rw [hm]
    simp only [operand, h]
    rw [memRead_paramAddr_ok]
    simp
  · rw [hm]
    have h0 : dg.val ≠ 0 := by omega
    have h1 : dg.val ≠ 1 := by omega
    simp [h0, h1]

/-- A source parameter's resolution raises exactly one of three faults, in this order: a bad mode digit, the parameter cell
out of bounds, the dereference out of bounds. -/
theorem resolveSource_error {d : Descriptor} {s : State} {i : Nat} {dg : Digit} {r : Raise}
    (hi : i ∉ d.writeParameterIndices) : resolveParam d s i dg = .error r ↔
      (2 ≤ dg.val ∧ r = ⟨.invalidParameterMode, (dg.val : Int)⟩) ∨
      (dg.val < 2 ∧ ¬ s.pc + i + 1 < s.mem.len ∧ r = ⟨.outOfBounds, paramAddr s i⟩) ∨
      (dg.val = 0 ∧ s.pc + i + 1 < s.mem.len ∧ ¬ s.mem.inRange (rawParam s i) ∧ r = ⟨.outOfBounds, rawParam s i⟩) := by
  rw [resolveParam, if_neg hi]
  rcases modeOfDigit_cases dg with ⟨h, hm⟩ | ⟨h, hm⟩ | ⟨h, hm⟩
  · rw [hm]
    simp only [operand, h]
    cases hr : memRead s.mem (paramAddr s i) with
    | error r' =>
      obtain ⟨h1, rfl⟩ := memRead_paramAddr_error.1 hr
      simp [h1, @eq_comm _ r]
    | ok r' =>
      obtain ⟨h1, rfl⟩ := memRead_paramAddr_ok.1 hr
      simp only [memRead_error]
      simp [h1]
  · rw [hm]
    simp only [operand, h]
    rw [memRead_paramAddr_error]
    simp
  · rw [hm]
    have h0 : dg.val ≠ 0 := by omega
    have h1 : ¬ dg.val < 2 := by omega
    simp [h, h0, h1, @eq_comm _ r]

/-- A destination parameter resolves to its raw value, whatever its digit. -/
theorem resolveDest_ok {d : Descriptor} {s : State} {i : Nat} {dg : Digit} {a : Int}
    (hi : i ∈ d.writeParameterIndices) : resolveParam d s i dg = .ok a ↔ DestIs s i a := by
  rw [resolveParam, if_pos hi]
  exact memRead_paramAddr_ok

/-- A destination parameter's resolution raises one fault only: its cell out of bounds. -/
theorem resolveDest_error {d : Descriptor} {s : State} {i : Nat} {dg : Digit} {r : Raise}
    (hi : i ∈ d.writeParameterIndices) : resolveParam d s i dg = .error r ↔
      ¬ s.pc + i + 1 < s.mem.len ∧ r = ⟨.outOfBounds, paramAddr s i⟩ := by
  rw [resolveParam, if_pos hi]
  exact memRead_paramAddr_error

/-- A readable source has mode digit 0 or 1. -/
theorem SourceIs.digit_lt {s : State} {i : Nat} {dg : Digit} {v : Int} (h : SourceIs s i dg v) : dg.val < 2 := by
  rcases h.2 with h | h <;> omega

/-- A source parameter has one value. -/
theorem SourceIs.unique {s : State} {i : Nat} {dg : Digit} {v v' : Int} (h : SourceIs s i dg v)
    (h' : SourceIs s i dg v') : v = v' := by
  rcases h.2 with ⟨h1, h⟩ | ⟨h1, -, h⟩ <;> rcases h'.2 with ⟨h1', h'⟩ | ⟨h1', -, h'⟩ <;> omega

/-- A source's fault is InvalidParameterMode for a digit 2 to 9 and OutOfBounds otherwise. -/
theorem resolveSource_kind {d : Descriptor} {s : State} {i : Nat} {dg : Digit} {r : Raise}
    (hi : i ∉ d.writeParameterIndices) (h : resolveParam d s i dg = .error r) :
    (2 ≤ dg.val ∧ r.kind = .invalidParameterMode) ∨ (dg.val < 2 ∧ r.kind = .outOfBounds) := by
  rcases (resolveSource_error hi).1 h with ⟨hd, rfl⟩ | ⟨hd, -, rfl⟩ | ⟨hd, -, -, rfl⟩
  · exact .inl ⟨hd, rfl⟩
  · exact .inr ⟨hd, rfl⟩
  · exact .inr ⟨by omega, rfl⟩

/-! ### Results and channels -/

theorem checkedResult_ok {W : Width} {w r v : Int} :
    checkedResult W w r = .ok v ↔ W.fits r = true ∧ v = r := by
  by_cases h : W.fits r = true <;> simp [checkedResult, h, eq_comm]

theorem checkedResult_error {W : Width} {w r : Int} {e : Raise} :
    checkedResult W w r = .error e ↔ W.fits r = false ∧ e = ⟨.overflow, w⟩ := by
  by_cases h : W.fits r = true <;> simp [checkedResult, h, eq_comm]

theorem nextInput_ok {w v : Int} {s t : State} :
    nextInput w s = .ok (v, t) ↔ s.inp[s.ic]? = some v ∧ t = moveCursor s := by
  cases h : s.inp[s.ic]? <;> simp [nextInput, h, eq_comm]

theorem nextInput_error {w : Int} {s : State} {r : Raise} :
    nextInput w s = .error r ↔ s.inp.length ≤ s.ic ∧ r = ⟨.inputExhausted, w⟩ := by
  rw [← List.getElem?_eq_none_iff]
  cases h : s.inp[s.ic]? <;> simp [nextInput, h, eq_comm]

/-! ### The width -/

/-- The content of an unlisted cell fits every width the spec admits. -/
theorem fits_zero {W : Width} (h : W.supported = true) : W.fits 0 = true := by
  cases W with
  | unbounded => rfl
  | bits n =>
    have : (0 : Int) < 2 ^ (n - 1) := by positivity
    simp only [Width.fits, decide_eq_true_eq]
    constructor <;> linarith

end Sys2Proof.Machine
end

