-- ==== Sys2Proof/Laws/PerInstr.lean ====
section
/-! SUPPORT. Statements for all instructions, one lemma per constructor of Instr. -/

namespace Sys2Proof.Laws.OpcodeDigits

/-- The two low decimal digits of an instruction's word are its opcode, and the word is not negative
(spec/30_encoding.md R81, R94). -/
def Statement (i : Sys2Proof.Instr) : Prop :=
  0 ≤ Sys2Proof.encode i ∧ (Sys2Proof.encode i).toNat % 100 = i.opcode

theorem add (m0 m1 d : Sys2Proof.Digit) (x : Nat) : Statement (.add m0 m1 d x) := by
  simp only [Statement, encode, encodeNat, Instr.opcode]
  omega

theorem mul (m0 m1 d : Sys2Proof.Digit) (x : Nat) : Statement (.mul m0 m1 d x) := by
  simp only [Statement, encode, encodeNat, Instr.opcode]
  omega

theorem inp (d : Sys2Proof.Digit) (x : Nat) : Statement (.inp d x) := by
  simp only [Statement, encode, encodeNat, Instr.opcode]
  omega

theorem out (m0 : Sys2Proof.Digit) (x : Nat) : Statement (.out m0 x) := by
  simp only [Statement, encode, encodeNat, Instr.opcode]
  omega

theorem halt (x : Nat) : Statement (.halt x) := by
  simp only [Statement, encode, encodeNat, Instr.opcode]
  omega

end Sys2Proof.Laws.OpcodeDigits
end

