-- ==== Sys2Proof/Laws/Step.lean ====
section
/-! SUPPORT. What each instruction and one step can answer, said once. -/

namespace Sys2Proof.Machine

/-- Everything ADD and MUL can answer, in the order of the step: a fault of the first source, of the second, of the
destination's cell, of the range test, of the write, or the one write and the advance. -/
theorem arithmetic_next {d : Descriptor} {op : Int → Int → Int} {w : Int} {m0 m1 dg : Digit} {s t : State}
    (hd : d.writeParameterIndices = [2]) (h : arithmetic d op w m0 m1 dg s = .next t) :
    (∃ r, resolveParam d s 0 m0 = .error r ∧ t = takeFault r s) ∨
    (∃ a, SourceIs s 0 m0 a ∧
      ((∃ r, resolveParam d s 1 m1 = .error r ∧ t = takeFault r s) ∨
       (∃ b, SourceIs s 1 m1 b ∧
        ((∃ r, resolveParam d s 2 dg = .error r ∧ t = takeFault r s) ∨
         (∃ p, DestIs s 2 p ∧
          ((s.width.fits (op a b) = false ∧ t = takeFault ⟨.overflow, w⟩ s) ∨
           (s.width.fits (op a b) = true ∧ s.mem.inRange p = false ∧ t = takeFault ⟨.outOfBounds, p⟩ s) ∨
           (s.width.fits (op a b) = true ∧ s.mem.inRange p = true ∧
            t = advance d (setMem (s.mem.set p.toNat (op a b)) s)))))))) := by
  simp only [arithmetic, attempt_next] at h
  rcases h with ⟨r, hr, rfl⟩ | ⟨a, ha, h⟩
  · exact .inl ⟨r, hr, rfl⟩
  refine .inr ⟨a, (resolveSource_ok (by simp [hd])).1 ha, ?_⟩
  rcases h with ⟨r, hr, rfl⟩ | ⟨b, hb, h⟩
  · exact .inl ⟨r, hr, rfl⟩
  refine .inr ⟨b, (resolveSource_ok (by simp [hd])).1 hb, ?_⟩
  rcases h with ⟨r, hr, rfl⟩ | ⟨p, hp, h⟩
  · exact .inl ⟨r, hr, rfl⟩
  refine .inr ⟨p, (resolveDest_ok (by simp [hd])).1 hp, ?_⟩
  rcases h with ⟨r, hr, rfl⟩ | ⟨v, hv, h⟩
  · obtain ⟨hf, rfl⟩ := checkedResult_error.1 hr
    exact .inl ⟨hf, rfl⟩
  obtain ⟨hf, rfl⟩ := checkedResult_ok.1 hv
  rcases h with ⟨r, hr, rfl⟩ | ⟨m, hm, h⟩
  · obtain ⟨hout, rfl⟩ := memWrite_error.1 hr
    exact .inr (.inl ⟨hf, by simpa using hout, rfl⟩)
  · obtain ⟨hr, rfl⟩ := memWrite_ok.1 hm
    exact .inr (.inr ⟨hf, hr, by simpa using h.symm⟩)

/-- ADD and MUL in short: either a fault is taken in the state before, or the one write and the advance happen. -/
theorem arithmetic_cases {d : Descriptor} {op : Int → Int → Int} {w : Int} {m0 m1 dg : Digit} {s t : State}
    (hd : d.writeParameterIndices = [2]) (h : arithmetic d op w m0 m1 dg s = .next t) :
    (∃ r, t = takeFault r s) ∨
    (∃ a b p, SourceIs s 0 m0 a ∧ SourceIs s 1 m1 b ∧ DestIs s 2 p ∧ s.width.fits (op a b) = true ∧
      s.mem.inRange p ∧ t = advance d (setMem (s.mem.set p.toNat (op a b)) s)) := by
  rcases arithmetic_next hd h with ⟨r, -, h⟩ | ⟨a, ha, ⟨r, -, h⟩ | ⟨b, hb, ⟨r, -, h⟩ | ⟨p, hp, ⟨-, h⟩ | ⟨-, -, h⟩ |
    ⟨hf, hr, h⟩⟩⟩⟩
  all_goals first | exact .inl ⟨_, h⟩ | exact .inr ⟨a, b, p, ha, hb, hp, hf, hr, h⟩

/-- ADD, by the shared operation. -/
theorem exec_add_cases {m0 m1 dg : Digit} {x : Nat} {s t : State} (h : exec (.add m0 m1 dg x) s = .next t) :
    (∃ r, t = takeFault r s) ∨
    (∃ a b p, SourceIs s 0 m0 a ∧ SourceIs s 1 m1 b ∧ DestIs s 2 p ∧ s.width.fits (a + b) = true ∧
      s.mem.inRange p ∧ t = advance addDescriptor (setMem (s.mem.set p.toNat (a + b)) s)) :=
  arithmetic_cases rfl h

/-- MUL, by the shared operation. -/
theorem exec_mul_cases {m0 m1 dg : Digit} {x : Nat} {s t : State} (h : exec (.mul m0 m1 dg x) s = .next t) :
    (∃ r, t = takeFault r s) ∨
    (∃ a b p, SourceIs s 0 m0 a ∧ SourceIs s 1 m1 b ∧ DestIs s 2 p ∧ s.width.fits (a * b) = true ∧
      s.mem.inRange p ∧ t = advance mulDescriptor (setMem (s.mem.set p.toNat (a * b)) s)) :=
  arithmetic_cases rfl h

/-- Everything IN can answer, in the order of the step: a fault of its parameter cell, the exhausted input, the fault of the
write with the cursor moved, or the take, the write and the advance. -/
theorem exec_inp_next {dg : Digit} {x : Nat} {s t : State} (h : exec (.inp dg x) s = .next t) :
    (s.mem.len ≤ s.pc + 1 ∧ t = takeFault ⟨.outOfBounds, paramAddr s 0⟩ s) ∨
    (∃ p, DestIs s 0 p ∧
      ((s.inp.length ≤ s.ic ∧ t = takeFault ⟨.inputExhausted, encode (.inp dg x)⟩ s) ∨
       (∃ v, s.inp[s.ic]? = some v ∧
        ((s.mem.inRange p = false ∧ t = takeFault ⟨.outOfBounds, p⟩ (moveCursor s)) ∨
         (s.mem.inRange p = true ∧
          t = advance inDescriptor (setMem (s.mem.set p.toNat v) (moveCursor s))))))) := by
  simp only [exec, execInp, attempt_next] at h
  rcases h with ⟨r, hr, rfl⟩ | ⟨p, hp, h⟩
  · obtain ⟨hl, rfl⟩ := (resolveDest_error (by decide)).1 hr
    exact .inl ⟨by omega, rfl⟩
  refine .inr ⟨p, (resolveDest_ok (by decide)).1 hp, ?_⟩
  rcases h with ⟨r, hr, rfl⟩ | ⟨⟨v, u⟩, hv, h⟩
  · obtain ⟨hi, rfl⟩ := nextInput_error.1 hr
    exact .inl ⟨hi, rfl⟩
  obtain ⟨hg, rfl⟩ := nextInput_ok.1 hv
  refine .inr ⟨v, hg, ?_⟩
  rcases h with ⟨r, hr, rfl⟩ | ⟨m, hm, h⟩
  · obtain ⟨hout, rfl⟩ := memWrite_error.1 hr
    exact .inl ⟨by simpa using hout, rfl⟩
  · obtain ⟨hr, rfl⟩ := memWrite_ok.1 hm
    exact .inr ⟨hr, by simpa using h.symm⟩

/-- IN in short: a fault in the state before, the fault of the write with the cursor moved, or the whole effect. -/
theorem exec_inp_cases {dg : Digit} {x : Nat} {s t : State} (h : exec (.inp dg x) s = .next t) :
    (∃ r, t = takeFault r s) ∨
    (∃ p v, DestIs s 0 p ∧ s.inp[s.ic]? = some v ∧ s.mem.inRange p = false ∧
      t = takeFault ⟨.outOfBounds, p⟩ (moveCursor s)) ∨
    (∃ p v, DestIs s 0 p ∧ s.inp[s.ic]? = some v ∧ s.mem.inRange p ∧
      t = advance inDescriptor (setMem (s.mem.set p.toNat v) (moveCursor s))) := by
  rcases exec_inp_next h with ⟨-, h⟩ | ⟨p, hp, ⟨-, h⟩ | ⟨v, hv, ⟨hr, h⟩ | ⟨hr, h⟩⟩⟩
  · exact .inl ⟨_, h⟩
  · exact .inl ⟨_, h⟩
  · exact .inr (.inl ⟨p, v, hp, hv, hr, h⟩)
  · exact .inr (.inr ⟨p, v, hp, hv, hr, h⟩)

/-- Everything OUT can answer: a fault of its source, or the append and the advance. -/
theorem exec_out_cases {m0 : Digit} {x : Nat} {s t : State} (h : exec (.out m0 x) s = .next t) :
    (∃ r, resolveParam outDescriptor s 0 m0 = .error r ∧ t = takeFault r s) ∨
    (∃ v, SourceIs s 0 m0 v ∧ t = advance outDescriptor (emit v s)) := by
  simp only [exec, execOut, attempt_next] at h
  rcases h with ⟨r, hr, rfl⟩ | ⟨v, hv, ht⟩
  · exact .inl ⟨r, hr, rfl⟩
  · exact .inr ⟨v, (resolveSource_ok (by decide)).1 hv, by simpa using ht.symm⟩

/-- HALT: one outcome. -/
theorem exec_halt_cases {x : Nat} {s t : State} (h : exec (.halt x) s = .next t) : t = haltRun s := by
  cases h
  rfl

/-- A step answers a next state only while Running, and then by a failed fetch, a word that is no instruction, or the
decoded instruction. -/
theorem step_cases {s t : State} (h : step s = .next t) :
    s.run = .running ∧
    ((s.mem.len ≤ s.pc ∧ t = takeFault ⟨.outOfBounds, (s.pc : Int)⟩ s) ∨
     (s.pc < s.mem.len ∧ (∃ e, decode (s.mem.get s.pc) = .error e) ∧
       t = takeFault ⟨.unknownOpcode, s.mem.get s.pc⟩ s) ∨
     (s.pc < s.mem.len ∧ ∃ i, decode (s.mem.get s.pc) = .ok i ∧ exec i s = .next t)) := by
  unfold step at h
  split at h
  · cases h
  · cases h
  next hrun =>
    refine ⟨hrun, ?_⟩
    rw [attempt_next] at h
    rcases h with ⟨r, hr, rfl⟩ | ⟨w, hw, h⟩
    · obtain ⟨h1, rfl⟩ := fetch_error.1 hr
      exact .inl ⟨h1, rfl⟩
    · obtain ⟨h1, rfl⟩ := fetch_ok.1 hw
      split at h
      next e he => exact .inr (.inl ⟨h1, ⟨e, he⟩, by simpa using h.symm⟩)
      next i hi => exact .inr (.inr ⟨h1, i, hi, h⟩)

/-- A step of a Running core whose word decodes runs the decoded instruction. -/
theorem step_of_decode {s : State} {i : Instr} (hrun : s.run = .running) (hpc : s.pc < s.mem.len)
    (hi : decode (s.mem.get s.pc) = .ok i) : step s = exec i s := by
  have hf : fetch s = .ok (s.mem.get s.pc) := fetch_ok.2 ⟨hpc, rfl⟩
  simp [step, hrun, hf, hi]

/-- A run of one more step goes on from the step's next state. -/
theorem core_run_succ {s t : State} (k : Nat) (h : step s = .next t) :
    Sys2Proof.core.run (k + 1) s = Sys2Proof.core.run k t := by
  have h' : Sys2Proof.core.step s = .next t := h
  simp only [Host.Core.run, h']

/-- A loop of one more step goes on from the step's next state. -/
theorem runLoop_succ {s t : State} (k : Nat) (h : step s = .next t) : runLoop (k + 1) s = runLoop k t := by
  rw [runLoop, h]

/-- A loop from a state that has ended stays there. -/
theorem runLoop_ended {s : State} (k : Nat) (h : s.run ≠ .running) : runLoop k s = s := by
  cases k with
  | zero => rfl
  | succ k =>
    cases hs : step s with
    | next t => exact absurd (step_cases hs).1 h
    | fault r => simp [runLoop, hs]
    | refused r => simp [runLoop, hs]

/-- The parameter list has one entry per parameter (spec/40_step_cycle.md R113). -/
theorem resolveAll_length {d : Descriptor} {w : Nat} {s : State} {k : Nat} {ps : List Int}
    (h : resolveAll d w s k = .ok ps) : ps.length = k := by
  induction k generalizing ps with
  | zero => simpa [resolveAll] using h.symm
  | succ k ih =>
    simp only [resolveAll] at h
    split at h
    · cases h
    next qs hq =>
      split at h
      · cases h
      next v hv =>
        cases h
        simp [ih hq]

end Sys2Proof.Machine
end

