-- ==== Sys2Proof/Tests/Slice0.lean ====
section
/-! SUPPORT. Tests. Every expected result is the spec's: a row of spec/95_test_vectors.md, named in the comment, or the
arithmetic of a rule. The last part shows, for every statement with hypotheses, a state and operands that meet them. -/

namespace Sys2Proof.Tests

open Sys2Proof.Machine

/-- A Running core of the default width with a program, a program counter, an input and a cursor. -/
def st (p : List Int) (pc : Nat) (inp : List Int) (ic : Nat) : State :=
  { width := .bits 64, mem := Memory.ofList p, pc := pc, run := .running, fault := none, ic := ic, inp := inp, out := [] }

/-- The next state, if there is one. -/
def nextOf : Host.Outcome State Fault Refusal → Option State
  | .next t => some t
  | .fault _ => none
  | .refused _ => none

/-- A next state with a property that was computed. -/
theorem exists_next {o : Host.Outcome State Fault Refusal} {q : State → Bool} (h : (nextOf o).any q = true) :
    ∃ t, o = .next t ∧ q t = true := by
  cases o with
  | next t => exact ⟨t, rfl, by simpa [nextOf] using h⟩
  | fault r => simp [nextOf] at h
  | refused r => simp [nextOf] at h

def wmax : Int := 9223372036854775807
def wmin : Int := -9223372036854775808

/-! ### Well-formedness: the one check refuses a word the width cannot hold -/

/-- 90001 > 2^15 - 1: not a word of 16 bits, but one of 17. -/
theorem test_wf_refuses_too_wide : Instr.wf (.bits 16) (.add 0 0 9 0) = false := by decide
theorem test_wf_accepts_wider_width : Instr.wf (.bits 18) (.add 0 0 9 0) = true := by decide
theorem test_wf_refuses_above_wmax : Instr.wf (.bits 64) (.halt 92233720368547758) = false := by decide
theorem test_wf_accepts_unbounded : Instr.wf .unbounded (.halt 92233720368547758) = true := by decide

/-! ### Decoding: words written out digit by digit from spec/30_encoding.md R84, `x d m1 m0 opcode` -/

/-- x = 8, d = 7, m1 = 1, m0 = 0, opcode 01. -/
theorem test_decode_add : decode 870001 = .ok (.add 0 0 7 8) := by decide
/-- 01002: m1 = 1, m0 = 0, opcode 02 (section 6, the source's own). -/
theorem test_decode_mul : decode 1002 = .ok (.mul 0 1 0 0) := by decide
/-- x = 5, d = 2, opcode 03: V51's digit, and one above. -/
theorem test_decode_in : decode 5203 = .ok (.inp 2 5) := by decide
/-- x = 1, m0 = 0, opcode 04 (V18). -/
theorem test_decode_out : decode 1004 = .ok (.out 0 1) := by decide
/-- 12399 mod 100 = 99 (V10). -/
theorem test_decode_halt : decode 12399 = .ok (.halt 123) := by decide
/-- V13: -99 is no halt. -/
theorem test_decode_negative : decode (-99) = .error .negativeWord := by decide
/-- V9: opcode 5 is unregistered whatever its digits. -/
theorem test_decode_unregistered : decode 205 = .error (.unregisteredOpcode 5) := by decide
/-- R103: the twelve canonical words are their own encodings. -/
theorem test_canonical_words : [1, 101, 1001, 1101, 2, 102, 1002, 1102, 3, 4, 104, 99].map
    (fun w => (decode w).toOption.map encode) =
    [some 1, some 101, some 1001, some 1101, some 2, some 102, some 1002, some 1102, some 3, some 4, some 104, some 99] := by
  decide
/-- R107 with section 6: `MUL [4], #3, @4` is `1002, 4, 3, 4`. -/
theorem test_assemble_mul : assembleLine (.mul (.pos 4) (.imm 3) 4) = [1002, 4, 3, 4] := by decide

/-- The opcode table's OUT row, `match` 4, read as a number. -/
theorem test_table_word : decodeTableWord 8 4 = some (.out 0 0) := by decide
/-- ... is the first instruction a core runs when it is placed after reset: OUT [0] emits cell 0, its own word. -/
theorem test_table_word_runs : (nextOf (step (State.reset.withFetchWord 8 4))).map (fun t => (t.out, t.pc)) = some ([4], 2) := by
  decide

/-! ### One step of each instruction -/

/-- V21: `ADD [5], #-4, @5`: 37 + (-4), source and destination the same cell. -/
theorem test_add_same_cell : (nextOf (step (st [1001, 5, -4, 5, 99, 37] 0 [] 0))).map (fun t => (t.mem.get 5, t.pc)) =
    some (33, 4) := by decide
/-- V26: WMIN + (-1) overflows. -/
theorem test_add_overflow : (nextOf (step (st [1, 5, 6, 0, 99, wmin, -1] 0 [] 0))).map (fun t => (t.fault, t.mem.get 0)) =
    some (some ⟨.overflow, 0, 1⟩, 1) := by decide
/-- T1: `MUL [3], [11], @0` in the middle of a program. -/
theorem test_mul_step : (nextOf (step (st [1, 9, 10, 70, 2, 3, 11, 0, 99, 30, 40, 50] 4 [] 0))).map
    (fun t => (t.mem.get 0, t.pc, t.run)) = some (3500, 8, .running) := by decide
/-- V40: (-2^62) * 2 = WMIN fits. -/
theorem test_mul_wmin_fits : (nextOf (step (st [1102, -4611686018427387904, 2, 0, 99] 0 [] 0))).map
    (fun t => (t.mem.get 0, t.run)) = some (wmin, .running) := by decide
/-- T5: the second value of the input, over a cell behind pc. -/
theorem test_in_step : (nextOf (step (st [3, 0, 3, 1, 99] 2 [5, 6] 1))).map (fun t => (t.mem.get 1, t.ic, t.pc)) =
    some (6, 2, 4) := by decide
/-- V44: a bad destination, the value consumed (decision D8). -/
theorem test_in_bad_destination : (nextOf (step (st [3, 7, 99] 0 [5] 0))).map (fun t => (t.fault, t.ic)) =
    some (some ⟨.outOfBounds, 0, 7⟩, 1) := by decide
/-- V53: `OUT #-7`. -/
theorem test_out_immediate : (nextOf (step (st [104, -7, 99] 0 [] 0))).map (fun t => (t.out, t.pc)) = some ([-7], 2) := by
  decide
/-- V56: a negative Position address is not wrapped. -/
theorem test_out_negative_address : (nextOf (step (st [4, -2, 99] 0 [] 0))).map (fun t => (t.fault, t.out)) =
    some (some ⟨.outOfBounds, 0, -2⟩, []) := by decide
/-- V69: the shortest halting program; pc stays. -/
theorem test_halt_step : (nextOf (step (st [99] 0 [] 0))).map (fun t => (t.run, t.pc)) = some (.halted, 0) := by decide
/-- V11 with R212: after a halt the host is given the memory, as loaded. -/
theorem test_halt_collect : execute State.reset [199, 1, 2] [] = some (.finished [199, 1, 2] []) := by decide
/-- V60: the empty program does not halt. -/
theorem test_empty_program : execute State.reset [] [] = some (.failed ⟨.outOfBounds, 0, 0⟩ []) := by decide
/-- V7 and V8: the first fault met in the order mode, read, next parameter. -/
theorem test_fault_order :
    (nextOf (step (st [2001, 50, 6, 7, 99] 0 [] 0))).map State.fault = some (some ⟨.outOfBounds, 0, 50⟩) ∧
    (nextOf (step (st [201, 5, 60, 7, 99, 1] 0 [] 0))).map State.fault = some (some ⟨.invalidParameterMode, 0, 2⟩) := by
  decide
/-- R160: the codes. -/
theorem test_fault_code : (nextOf (step (st [3, 0, 99] 0 [] 0))).map faultCode = some 4 := by decide

/-! ### Witnesses: for each statement with hypotheses, what meets them, clause by clause -/

/-- `ADD [5], [6], @7` with 20 and 22. -/
def sAdd : State := st [1, 5, 6, 7, 99, 20, 22, 0] 0 [] 0
/-- The same core, Halted. -/
def sHalted : State := { sAdd with run := .halted }

theorem witness_EncodeOfDecode : decode 1002 = .ok (.mul 0 1 0 0) := by decide

theorem witness_FieldsAreDecimalDigits : (0 : Int) ≤ 91101 ∧ decode 91101 = .ok (.add 1 1 9 0) := by decide

theorem witness_ShortWordsArePosition : (2 : Nat) ≤ (2 : Digit).val ∧ (99 : Nat) < 10 ^ (0 + 2) ∧ (999 : Nat) < 10 ^ (1 + 2) := by
  decide

/-- Digits 0, 1, 2 and 9. -/
theorem witness_ParameterModeIsItsDigit : 1002 / 10 ^ (0 + 2) % 10 = 0 ∧ 1002 / 10 ^ (1 + 2) % 10 = 1 ∧
    2 ≤ 201 / 10 ^ (0 + 2) % 10 ∧ 2 ≤ 901 / 10 ^ (0 + 2) % 10 ∧ 0 ∉ addDescriptor.writeParameterIndices := by decide

/-- A halt word, and words of opcodes 0 and 98. -/
theorem witness_LookupIsTheTable : (∀ w ∈ [99, 199, 0, 298], (st [w] 0 [] 0).run = .running ∧
    (st [w] 0 [] 0).pc < (st [w] 0 [] 0).mem.len ∧ (st [w] 0 [] 0).mem.get (st [w] 0 [] 0).pc = w) ∧
    (99 % 100 = 99 ∧ 199 % 100 = 99) ∧ (0 % 100 ≠ 99 ∧ lookup (0 % 100) = none) ∧
    (298 % 100 ≠ 99 ∧ lookup (298 % 100) = none) := by decide

/-- Addresses -1 and 3 outside, 0 and 2 inside three cells; a Position read whose first read succeeds. -/
theorem witness_EveryReadIsChecked : ((-1 : Int) < 0 ∧ ((Memory.ofList [7, 0, -1]).len : Int) ≤ 3) ∧
    ((0 : Int) ≤ 0 ∧ (2 : Int) < (Memory.ofList [7, 0, -1]).len) ∧ memRead (Memory.ofList [7, 0, -1]) 1 = .ok 0 ∧
    0 ∈ inDescriptor.writeParameterIndices ∧ 0 ∉ outDescriptor.writeParameterIndices ∧ modeOfDigit 1 = some .immediate := by
  decide

/-- A failing first read, one that succeeds, and raw values 7 and -1 outside three cells. -/
theorem witness_OperandModes : (0 ∉ outDescriptor.writeParameterIndices ∧ modeOfDigit 0 = some .position) ∧
    memRead (Memory.ofList [7, 0, -1]) 3 = .error ⟨.outOfBounds, 3⟩ ∧
    memRead (Memory.ofList [7, 0, -1]) 1 = .ok 0 ∧
    (memRead (Memory.ofList [7, 0, -1]) 0 = .ok 7 ∧ ((Memory.ofList [7, 0, -1]).len : Int) ≤ 7) ∧
    (memRead (Memory.ofList [7, 0, -1]) 2 = .ok (-1) ∧ (-1 : Int) < 0) := by decide

theorem witness_WriteChangesOneCell : ((-1 : Int) < 0 ∧ ((Memory.ofList [7, 0, -1]).len : Int) ≤ 3) ∧
    (0 : Int) ≤ 0 ∧ (2 : Int) < (Memory.ofList [7, 0, -1]).len := by decide

theorem witness_DestinationDigitIgnored : 2 ∈ addDescriptor.writeParameterIndices ∧ DestIs sAdd 2 7 ∧
    resolveParam addDescriptor (st [1101, 1, 2] 0 [] 0) 2 0 = .error ⟨.outOfBounds, 3⟩ := by decide

theorem witness_StepRunsDecoded : sAdd.run = .running ∧ sAdd.pc < sAdd.mem.len ∧
    decode (sAdd.mem.get sAdd.pc) = .ok (.add 0 0 0 0) ∧ Instr.wf sAdd.width (.add 0 0 0 0) = true := by decide

theorem witness_FetchReadsLiveMemory : sAdd.pc < sAdd.mem.len ∧ memWrite sAdd.mem (sAdd.pc : Int) 99 = .ok (sAdd.mem.set 0 99) ∧
    ((st [] 0 [] 0).run = .running ∧ (st [] 0 [] 0).mem.len ≤ (st [] 0 [] 0).pc) ∧ sAdd.registersBounded := by decide

/-- Opcodes 0, 5 and 98, with digits above. -/
theorem witness_UnregisteredOpcodesFault : ∀ w ∈ [0, 100, 5, 205, 98], (st [w] 0 [] 0).run = .running ∧
    (st [w] 0 [] 0).pc < (st [w] 0 [] 0).mem.len ∧ 0 ≤ (st [w] 0 [] 0).mem.get 0 ∧
    (st [w] 0 [] 0).mem.get 0 % 100 ≠ 1 ∧ (st [w] 0 [] 0).mem.get 0 % 100 ≠ 2 ∧ (st [w] 0 [] 0).mem.get 0 % 100 ≠ 3 ∧
    (st [w] 0 [] 0).mem.get 0 % 100 ≠ 4 ∧ (st [w] 0 [] 0).mem.get 0 % 100 ≠ 99 := by decide

theorem witness_NegativeWordsFault : ∀ w ∈ [-1, -99], (st [w] 0 [] 0).run = .running ∧
    (st [w] 0 [] 0).pc < (st [w] 0 [] 0).mem.len ∧ (st [w] 0 [] 0).mem.get (st [w] 0 [] 0).pc < 0 := by decide

theorem witness_HaltWordsHalt : ∀ w ∈ [99, 199, 12399], (st [w] 0 [] 0).run = .running ∧
    (st [w] 0 [] 0).pc < (st [w] 0 [] 0).mem.len ∧ 0 ≤ (st [w] 0 [] 0).mem.get (st [w] 0 [] 0).pc ∧
    (st [w] 0 [] 0).mem.get (st [w] 0 [] 0).pc % 100 = 99 := by decide

theorem witness_HaltedIsTerminal : sHalted.run = .halted ∧ collect sHalted = .finished sHalted.mem.toList [] ∧
    sAdd.width = sHalted.width := by decide

/-- A step that goes on (of each width), one that halts, one that faults. -/
theorem witness_ProgramCounterAfterStep :
    (∃ t, step sAdd = .next t ∧ decide (t.run = .running) = true) ∧
    (∃ t, step (st [104, 1] 0 [] 0) = .next t ∧ decide (t.run = .running) = true) ∧
    (∃ t, step (st [99] 0 [] 0) = .next t ∧ decide (t.run = .halted) = true) ∧
    (∃ t, step (st [5] 0 [] 0) = .next t ∧ decide (t.run = .faulted) = true) :=
  ⟨exists_next (by decide), exists_next (by decide), exists_next (by decide), exists_next (by decide)⟩

/-- The second clause: an OUT that ends at the end of memory. -/
theorem witness_AdvanceByDescriptor :
    ∃ t, step (st [104, 1] 0 [] 0) = .next t ∧ decide (t.run = .running ∧ t.mem.len ≤ t.pc) = true :=
  exists_next (by decide)

/-- A second parameter that cannot be read; parameters that can, with a handler that returns and one that faults. -/
theorem witness_ResolutionFaultsComeFirst : (st [1, 0, 50, 0] 0 [] 0).run = .running ∧
    (st [1, 0, 50, 0] 0 [] 0).pc < (st [1, 0, 50, 0] 0 [] 0).mem.len ∧ 0 ≤ (st [1, 0, 50, 0] 0 [] 0).mem.get 0 ∧
    lookup (((st [1, 0, 50, 0] 0 [] 0).mem.get 0).toNat % 100) = some addDescriptor ∧
    resolveAll addDescriptor ((st [1, 0, 50, 0] 0 [] 0).mem.get 0).toNat (st [1, 0, 50, 0] 0 [] 0) 3 =
      .error ⟨.outOfBounds, 50⟩ ∧
    (resolveAll addDescriptor 1 sAdd 3 = .ok [20, 22, 7] ∧
      handle .add [20, 22, 7] 1 sAdd = .ok { sAdd with mem := sAdd.mem.set 7 42 }) ∧
    (resolveAll addDescriptor 1101 (st [1101, 1, 1, 5, 99] 0 [] 0) 3 = .ok [1, 1, 5] ∧
      handle .add [1, 1, 5] 1101 (st [1101, 1, 1, 5, 99] 0 [] 0) =
        .error (⟨.outOfBounds, 5⟩, st [1101, 1, 1, 5, 99] 0 [] 0)) := by decide

theorem witness_EveryRunEnds : State.reset.run = .running ∧ sAdd.run = .running := by decide

theorem witness_StepKeepsInvariant : sAdd.Inv ∧ ∃ t, step sAdd = .next t ∧ decide (t.mem.get 7 = 42) = true :=
  ⟨by decide, exists_next (by decide)⟩

theorem witness_HostResetMeetsInvariant :
    ∃ t, hostReset State.reset [3, 0, 99] [42] = .next t ∧ decide (t.inp = [42]) = true :=
  exists_next (by decide)

/-- WMAX and WMIN are words, WMAX + 1 and WMIN - 1 are not, in the program and in the input. -/
theorem witness_HostResetState : State.reset.width.supported = true ∧
    (∀ v ∈ [99, wmax, wmin], State.reset.width.fits v = true) ∧
    (∃ v ∈ [99] ++ [wmax + 1], State.reset.width.fits v = false) ∧
    (∃ v ∈ [wmin - 1] ++ [], State.reset.width.fits v = false) := by decide

theorem witness_ResetIsComplete : sAdd.width = sHalted.width ∧
    ∃ t, hostReset sAdd [99] [] = .next t ∧ decide ((([99] : List Int).length : Int) ≤ 1) = true :=
  ⟨by decide, exists_next (by decide)⟩

theorem witness_RunParametersNeverChange : ∃ t, step (st [3, 0, 99] 0 [42] 0) = .next t ∧ decide (t.ic = 1) = true :=
  exists_next (by decide)

theorem witness_ExecuteAlwaysAnswers : State.reset.width.supported = true ∧
    (∀ v ∈ [1101, 100, -1, 4, 0], State.reset.width.fits v = true) ∧ (∀ v ∈ [wmax], State.reset.width.fits v = true) := by
  decide

/-- Both sources in Position mode; and both Immediate, with the destination the instruction's own word. -/
theorem witness_AddStoresSum :
    (SourceIs sAdd 0 0 20 ∧ SourceIs sAdd 1 0 22 ∧ DestIs sAdd 2 7 ∧ sAdd.width.fits (20 + 22) = true ∧
      sAdd.mem.inRange 7 = true) ∧
    (SourceIs (st [1101, 1, 1, 0, 99] 0 [] 0) 0 1 1 ∧ SourceIs (st [1101, 1, 1, 0, 99] 0 [] 0) 1 1 1 ∧
      DestIs (st [1101, 1, 1, 0, 99] 0 [] 0) 2 0 ∧ (st [1101, 1, 1, 0, 99] 0 [] 0).width.fits (1 + 1) = true ∧
      (st [1101, 1, 1, 0, 99] 0 [] 0).mem.inRange 0 = true) := by decide

theorem witness_MulStoresProduct : SourceIs (st [1002, 5, 1, 0, 99, wmin] 0 [] 0) 0 0 wmin ∧
    SourceIs (st [1002, 5, 1, 0, 99, wmin] 0 [] 0) 1 1 1 ∧ DestIs (st [1002, 5, 1, 0, 99, wmin] 0 [] 0) 2 0 ∧
    (st [1002, 5, 1, 0, 99, wmin] 0 [] 0).width.fits (wmin * 1) = true ∧
    (st [1002, 5, 1, 0, 99, wmin] 0 [] 0).mem.inRange 0 = true := by decide

theorem witness_InStoresNextInput : DestIs (st [3, 2, 99] 0 [4, 5] 1) 0 2 ∧
    (st [3, 2, 99] 0 [4, 5] 1).inp[(st [3, 2, 99] 0 [4, 5] 1).ic]? = some 5 ∧
    (st [3, 2, 99] 0 [4, 5] 1).mem.inRange 2 = true := by decide

/-- A word; a readable operand in each mode; digits 2 and 9; the parameter cell past the end; raw values -2 and LEN. -/
theorem witness_OutEmitsOperand : 1004 % 100 = 4 ∧
    SourceIs (st [4, 2, 99] 0 [] 0) 0 0 99 ∧ SourceIs (st [104, -7, 99] 0 [] 0) 0 1 (-7) ∧
    (2 ≤ (2 : Digit).val ∧ 2 ≤ (9 : Digit).val) ∧
    ((1 : Digit).val < 2 ∧ (st [4] 0 [] 0).mem.len ≤ (st [4] 0 [] 0).pc + 1) ∧
    ((0 : Digit).val = 0 ∧ 0 + 1 < (st [4, -2, 99] 0 [] 0).mem.len ∧
      (st [4, -2, 99] 0 [] 0).mem.inRange ((st [4, -2, 99] 0 [] 0).mem.get (0 + 1)) = false) ∧
    (st [4, 3, 99] 0 [] 0).mem.inRange ((st [4, 3, 99] 0 [] 0).mem.get (0 + 1)) = false := by decide

/-- WMAX + WMAX and WMAX * WMAX; the least sum too large and product too large. -/
theorem witness_OverflowFaults : SourceIs (st [1, 5, 5, 0, 99, wmax] 0 [] 0) 0 0 wmax ∧
    SourceIs (st [1, 5, 5, 0, 99, wmax] 0 [] 0) 1 0 wmax ∧ DestIs (st [1, 5, 5, 0, 99, wmax] 0 [] 0) 2 0 ∧
    (st [1, 5, 5, 0, 99, wmax] 0 [] 0).width.fits (wmax + wmax) = false ∧
    (st [1, 5, 5, 0, 99, wmax] 0 [] 0).width.fits (wmax * wmax) = false ∧
    (Width.bits 64).fits (wmax + 1) = false ∧ (Width.bits 64).fits (wmin * (-1)) = false := by decide

/-- Destinations LEN and -1. -/
theorem witness_BadDestinationFaults : ∀ p ∈ [5, -1], SourceIs (st [1101, 1, 1, p, 99] 0 [] 0) 0 1 1 ∧
    SourceIs (st [1101, 1, 1, p, 99] 0 [] 0) 1 1 1 ∧ DestIs (st [1101, 1, 1, p, 99] 0 [] 0) 2 p ∧
    (st [1101, 1, 1, p, 99] 0 [] 0).mem.inRange p = false ∧
    (st [1101, 1, 1, p, 99] 0 [] 0).width.fits (1 + 1) = true ∧
    (st [1101, 1, 1, p, 99] 0 [] 0).width.fits (1 * 1) = true := by decide

/-- The parameter cell past the end; no input; destinations LEN and -1. -/
theorem witness_InFaultsInOrder : (st [3] 0 [5] 0).mem.len ≤ (st [3] 0 [5] 0).pc + 1 ∧
    ((st [3, 0] 0 [5] 1).pc + 1 < (st [3, 0] 0 [5] 1).mem.len ∧ (st [3, 0] 0 [5] 1).inp.length ≤ (st [3, 0] 0 [5] 1).ic) ∧
    (∀ p ∈ [3, -1], DestIs (st [3, p, 99] 0 [5] 0) 0 p ∧
      (st [3, p, 99] 0 [5] 0).ic < (st [3, p, 99] 0 [5] 0).inp.length ∧
      (st [3, p, 99] 0 [5] 0).mem.inRange p = false) := by decide

theorem witness_InvalidModeDigitsFault : 2 ≤ (2 : Digit).val ∧ 2 ≤ (9 : Digit).val ∧
    SourceIs (st [2001, 5, 6, 7, 99, 20, 22, 0] 0 [] 0) 0 0 20 ∧
    ((st [903, 0, 99] 0 [7] 0).run = .running ∧
      ∃ t, exec (.inp 9 0) (st [903, 0, 99] 0 [7] 0) = .next t ∧ decide (t.ic = 1) = true) :=
  ⟨by decide, by decide, by decide, by decide, exists_next (by decide)⟩

/-- The left side of the equivalence is met too: m0 bad, m1 bad after a readable p0, OUT's m0 bad. -/
theorem witness_InvalidModeCauses :
    ∀ p ∈ [[201, 5, 6, 7], [2002, 0, 6, 7], [204, 0, 99]],
      ∃ t, step (st p 0 [] 0) = .next t ∧ decide (t.run = .faulted ∧ t.fault.map FaultRecord.kind = some .invalidParameterMode) = true := by
  intro p hp
  refine exists_next ?_
  revert p
  decide

theorem witness_InputExhaustedCause : ∃ t, step (st [3, 0, 99] 0 [] 0) = .next t ∧
    decide (t.run = .faulted ∧ t.fault.map FaultRecord.kind = some .inputExhausted) = true :=
  exists_next (by decide)

theorem witness_OverflowCause : ∃ t, step (st [1, 5, 5, 0, 99, wmax] 0 [] 0) = .next t ∧
    decide (t.run = .faulted ∧ t.fault.map FaultRecord.kind = some .overflow) = true :=
  exists_next (by decide)

/-- ADD and MUL: p0's cell past the end; raw values LEN and -1; the same of p1 (V7's neighbours); the destination's cell past
the end. -/
theorem witness_ArithmeticReadFaultsInOrder : (st [1] 0 [] 0).mem.len ≤ (st [1] 0 [] 0).pc + 1 ∧
    (∀ a ∈ [5, -1], 0 + 1 < (st [1, a, 0, 0, 99] 0 [] 0).mem.len ∧
      (st [1, a, 0, 0, 99] 0 [] 0).mem.inRange (rawParam (st [1, a, 0, 0, 99] 0 [] 0) 0) = false) ∧
    (SourceIs (st [2, 0] 0 [] 0) 0 0 2 ∧ (st [2, 0] 0 [] 0).mem.len ≤ (st [2, 0] 0 [] 0).pc + 2) ∧
    (∀ b ∈ [5, -1], SourceIs (st [102, 7, b, 0, 99] 0 [] 0) 0 1 7 ∧ 0 + 2 < (st [102, 7, b, 0, 99] 0 [] 0).mem.len ∧
      (st [102, 7, b, 0, 99] 0 [] 0).mem.inRange (rawParam (st [102, 7, b, 0, 99] 0 [] 0) 1) = false) ∧
    (SourceIs (st [1101, 1, 2] 0 [] 0) 0 1 1 ∧ SourceIs (st [1101, 1, 2] 0 [] 0) 1 1 2 ∧
      (st [1101, 1, 2] 0 [] 0).mem.len ≤ (st [1101, 1, 2] 0 [] 0).pc + 3) := by decide

/-- The parts after the first: the fetch at LEN; the words are ADD, MUL, IN and OUT of a Running core; their reads that fail are
those of the witnesses of ArithmeticReadFaultsInOrder, InFaultsInOrder and OutEmitsOperand; and a destination at LEN. -/
theorem witness_OutOfBoundsCauses_converse : (st [99] 1 [] 0).pc = (st [99] 1 [] 0).mem.len ∧
    (decode ((st [1] 0 [] 0).mem.get 0) = .ok (.add 0 0 0 0) ∧ (0 : Digit).val < 2) ∧
    (decode ((st [1, 5, 0, 0, 99] 0 [] 0).mem.get 0) = .ok (.add 0 0 0 0) ∧
      decode ((st [1, -1, 0, 0, 99] 0 [] 0).mem.get 0) = .ok (.add 0 0 0 0)) ∧
    decode ((st [2, 0] 0 [] 0).mem.get 0) = .ok (.mul 0 0 0 0) ∧
    (decode ((st [102, 7, 5, 0, 99] 0 [] 0).mem.get 0) = .ok (.mul 1 0 0 0) ∧
      decode ((st [102, 7, -1, 0, 99] 0 [] 0).mem.get 0) = .ok (.mul 1 0 0 0)) ∧
    (decode ((st [1101, 1, 2] 0 [] 0).mem.get 0) = .ok (.add 1 1 0 0) ∧ (1 : Digit).val < 2) ∧
    (decode ((st [1101, 1, 1, 5, 99] 0 [] 0).mem.get 0) = .ok (.add 1 1 0 0) ∧
      DestIs (st [1101, 1, 1, 5, 99] 0 [] 0) 2 5 ∧ (st [1101, 1, 1, 5, 99] 0 [] 0).mem.inRange 5 = false ∧
      (st [1101, 1, 1, 5, 99] 0 [] 0).width.fits (1 + 1) = true) ∧
    (decode ((st [3] 0 [5] 0).mem.get 0) = .ok (.inp 0 0) ∧ decode ((st [3, 3, 99] 0 [5] 0).mem.get 0) = .ok (.inp 0 0)) ∧
    (decode ((st [4] 0 [] 0).mem.get 0) = .ok (.out 0 0) ∧ decode ((st [4, -2, 99] 0 [] 0).mem.get 0) = .ok (.out 0 0)) := by
  decide

/-- One program for each cause: the fetch, a parameter cell, a dereference, a destination of ADD, of IN, an OUT. -/
theorem witness_OutOfBoundsCauses :
    ∀ p ∈ [[], [1101, 1, 2], [1, -1, 0, 0, 99], [1101, 1, 1, 5, 99], [3, 7, 99], [4, 9, 99]],
      (st p 0 [5] 0).registersBounded ∧ ∃ t, step (st p 0 [5] 0) = .next t ∧
        decide (t.run = .faulted ∧ t.fault.map FaultRecord.kind = some .outOfBounds) = true := by
  intro p hp
  refine ⟨?_, exists_next ?_⟩ <;> revert p <;> decide

/-- The exception: the cursor has moved. -/
theorem witness_FaultsArePrecise : (∃ t, step (st [5] 0 [] 0) = .next t ∧ decide (t.run = .faulted) = true) ∧
    (∃ t, step (st [3, 7, 99] 0 [5] 0) = .next t ∧ decide (t.run = .faulted ∧ t.ic = 1) = true) :=
  ⟨exists_next (by decide), exists_next (by decide)⟩

/-- A destination that can be read, and one whose cell is past the end, for ADD and MUL. -/
theorem witness_ArithmeticFrame :
    ((∃ t, exec (.add 0 0 0 0) sAdd = .next t ∧ decide (t.mem.get 7 = 42) = true) ∧
      resolveParam addDescriptor sAdd 2 0 = .ok 7) ∧
    ((∃ t, exec (.mul 1 1 0 0) (st [1102, 1, 2] 0 [] 0) = .next t ∧ decide (t.run = .faulted) = true) ∧
      resolveParam addDescriptor (st [1102, 1, 2] 0 [] 0) 2 0 = .error ⟨.outOfBounds, 3⟩) :=
  ⟨⟨exists_next (by decide), by decide⟩, exists_next (by decide), by decide⟩

theorem witness_InFrame :
    ((∃ t, exec (.inp 0 0) (st [3, 2, 99] 0 [4] 0) = .next t ∧ decide (t.mem.get 2 = 4) = true) ∧
      resolveParam inDescriptor (st [3, 2, 99] 0 [4] 0) 0 0 = .ok 2) ∧
    ((∃ t, exec (.inp 0 0) (st [3] 0 [4] 0) = .next t ∧ decide (t.run = .faulted) = true) ∧
      resolveParam inDescriptor (st [3] 0 [4] 0) 0 0 = .error ⟨.outOfBounds, 1⟩) :=
  ⟨⟨exists_next (by decide), by decide⟩, exists_next (by decide), by decide⟩

theorem witness_OutFrame : ∃ t, exec (.out 0 0) (st [4, 2, 99] 0 [] 0) = .next t ∧ decide (t.out = [99]) = true :=
  exists_next (by decide)

theorem witness_HaltFrame : ∃ t, exec (.halt 0) (st [99] 0 [] 0) = .next t ∧ decide (t.run = .halted) = true :=
  exists_next (by decide)

theorem witness_InputConsumedInOrder : (st [3, 0, 99] 0 [] 0).inp.length ≤ (st [3, 0, 99] 0 [] 0).ic ∧
    (st [3, 0, 99] 0 [5, 6] 1).inp[(st [3, 0, 99] 0 [5, 6] 1).ic]? = some 6 ∧
    ∃ t, step (st [3, 0, 99] 0 [5, 6] 1) = .next t ∧ decide (t.ic = 2) = true :=
  ⟨by decide, by decide, exists_next (by decide)⟩

theorem witness_OutputIsAppendOnly : ∃ t, step (st [104, 8] 0 [] 0) = .next t ∧ decide (t.out = [8]) = true :=
  exists_next (by decide)

/-- A step that goes on and one that faults. -/
theorem witness_OutputIsNeverRead : (∃ t, step (st [104, 8] 0 [] 0) = .next t ∧ decide (t.out = [8]) = true) ∧
    (∃ t, step (st [5] 0 [] 0) = .next t ∧ decide (t.run = .faulted) = true) :=
  ⟨exists_next (by decide), exists_next (by decide)⟩

theorem witness_ChannelsAreIndependent :
    (∃ t, exec (.inp 0 0) (st [3, 2, 99] 0 [4] 0) = .next t ∧ decide (t.ic = 1) = true) ∧
    (∃ t, exec (.out 0 0) (st [4, 2, 99] 0 [] 0) = .next t ∧ decide (t.out = [99]) = true) :=
  ⟨exists_next (by decide), exists_next (by decide)⟩

/-- S6's ADD over the next instruction word, a MUL there too, and V48's IN. -/
theorem witness_StoreSeenByNextFetch :
    (SourceIs (st [1101, 100, -1, 4, 0] 0 [] 0) 0 1 100 ∧ SourceIs (st [1101, 100, -1, 4, 0] 0 [] 0) 1 1 (-1) ∧
      DestIs (st [1101, 100, -1, 4, 0] 0 [] 0) 2 ((0 + 4 : Nat) : Int) ∧ 0 + 4 < (st [1101, 100, -1, 4, 0] 0 [] 0).mem.len ∧
      (Width.bits 64).fits (100 + -1) = true ∧ (Width.bits 64).fits (100 * -1) = true) ∧
    (DestIs (st [3, 2, 0, 0, 99] 0 [4] 0) 0 ((0 + 2 : Nat) : Int) ∧ 0 + 2 < (st [3, 2, 0, 0, 99] 0 [4] 0).mem.len ∧
      (st [3, 2, 0, 0, 99] 0 [4] 0).inp[0]? = some 4) := by decide

theorem witness_UnexaminedDigitsIgnored : (Instr.add 0 0 0 0).sameExamined (.add 0 0 2 9) ∧
    ∃ t, exec (.add 0 0 0 0) sAdd = .next t ∧ decide (t.mem.get 7 = 42) = true :=
  ⟨⟨rfl, rfl⟩, exists_next (by decide)⟩

end Sys2Proof.Tests
end

section
/-! PROOFS. The program counter over a step (spec/10_state.md R22) and the independence of the channels (R37). -/

namespace Sys2Proof

/-- A word that decodes is not negative, and its two low decimal digits are the opcode of the instruction
(spec/30_encoding.md R82, R83). -/
theorem decode_ok {w : Int} {i : Instr} (h : decode w = .ok i) : 0 ≤ w ∧ w % 100 = i.opcode := by
  rcases lt_or_ge w 0 with hneg | hpos
  · simp [decode_neg hneg] at h
  lift w to Nat using hpos with n
  refine ⟨by omega, ?_⟩
  by_cases hhalt : n % 100 = 99
  · rw [decode_halt hhalt] at h
    cases h
    simp only [Instr.opcode]
    omega
  cases hl : lookup (n % 100) with
  | none => simp [decode_unregistered hhalt hl] at h
  | some d =>
    rw [decode_of_lookup hl] at h
    cases h
    rcases lookup_some.1 hl with ⟨hop, rfl⟩ | ⟨hop, rfl⟩ | ⟨hop, rfl⟩ | ⟨hop, rfl⟩ <;>
      simp only [addDescriptor, mulDescriptor, inDescriptor, outDescriptor, fieldsOf, Instr.opcode] <;> omega

end Sys2Proof

namespace Sys2Proof.Machine

/-! ### The program counter -/

/-- What an instruction does to the program counter: it takes a fault there, halts there, or goes on past the cells its
descriptor counts (spec/40_step_cycle.md R117). -/
theorem exec_pc_cases {i : Instr} {s t : State} (h : exec i s = .next t) :
    (∃ r u, u.pc = s.pc ∧ t = takeFault r u) ∨
    (i.opcode = 99 ∧ t = haltRun s) ∨
    (t.run = s.run ∧ ∃ d, lookup i.opcode = some d ∧ t.pc = s.pc + (d.parameterCount + 1)) := by
  cases i with
  | add m0 m1 d x =>
    rcases exec_add_cases h with ⟨r, rfl⟩ | ⟨a, b, p, -, -, -, -, -, rfl⟩
    · exact .inl ⟨r, s, rfl, rfl⟩
    · exact .inr (.inr ⟨rfl, addDescriptor, rfl, rfl⟩)
  | mul m0 m1 d x =>
    rcases exec_mul_cases h with ⟨r, rfl⟩ | ⟨a, b, p, -, -, -, -, -, rfl⟩
    · exact .inl ⟨r, s, rfl, rfl⟩
    · exact .inr (.inr ⟨rfl, mulDescriptor, rfl, rfl⟩)
  | inp d x =>
    rcases exec_inp_cases h with ⟨r, rfl⟩ | ⟨p, v, -, -, -, rfl⟩ | ⟨p, v, -, -, -, rfl⟩
    · exact .inl ⟨r, s, rfl, rfl⟩
    · exact .inl ⟨_, moveCursor s, rfl, rfl⟩
    · exact .inr (.inr ⟨rfl, inDescriptor, rfl, rfl⟩)
  | out m0 x =>
    rcases exec_out_cases h with ⟨r, -, rfl⟩ | ⟨v, -, rfl⟩
    · exact .inl ⟨r, s, rfl, rfl⟩
    · exact .inr (.inr ⟨rfl, outDescriptor, rfl, rfl⟩)
  | halt x => exact .inr (.inl ⟨rfl, exec_halt_cases h⟩)

/-- What a step does to the program counter: it takes a fault there, halts there at a word that ends in 99, or goes on past
the cells that the descriptor of the word's opcode counts. -/
theorem step_pc_cases {s t : State} (h : step s = .next t) :
    (∃ r u, u.pc = s.pc ∧ t = takeFault r u) ∨
    (s.pc < s.mem.len ∧ 0 ≤ s.mem.get s.pc ∧ s.mem.get s.pc % 100 = 99 ∧ t = haltRun s) ∨
    (t.run = .running ∧ 0 ≤ s.mem.get s.pc ∧ ∃ op d, s.mem.get s.pc % 100 = (op : Nat) ∧ lookup op = some d ∧
      t.pc = s.pc + (d.parameterCount + 1)) := by
  obtain ⟨hrun, ⟨-, rfl⟩ | ⟨-, -, rfl⟩ | ⟨hpc, i, hi, hx⟩⟩ := step_cases h
  · exact .inl ⟨_, s, rfl, rfl⟩
  · exact .inl ⟨_, s, rfl, rfl⟩
  obtain ⟨hpos, hop⟩ := decode_ok hi
  rcases exec_pc_cases hx with hfault | ⟨h99, rfl⟩ | ⟨hr, d, hd, ht⟩
  · exact .inl hfault
  · exact .inr (.inl ⟨hpc, hpos, by omega, rfl⟩)
  · exact .inr (.inr ⟨hr.trans hrun, hpos, i.opcode, d, hop, hd, ht⟩)

/-- Settles O23: a fault and a halt stay at the word, and the table gives the advance of every other opcode. -/
theorem programCounterAfterStep : Obligations.ProgramCounterAfterStep := by
  intro s t h
  rcases step_pc_cases h with ⟨r, u, hu, rfl⟩ | ⟨hpc, hpos, h99, rfl⟩ | ⟨hrun, hpos, op, d, hop, hd, ht⟩
  · simp [hu]
  · simp [hpc, hpos, h99]
  · refine ⟨fun _ => ⟨hpos, ?_⟩, by simp [hrun], by simp [hrun]⟩
    rcases lookup_some.1 hd with ⟨rfl, rfl⟩ | ⟨rfl, rfl⟩ | ⟨rfl, rfl⟩ | ⟨rfl, rfl⟩
    · exact .inl ⟨.inl hop, ht⟩
    · exact .inl ⟨.inr hop, ht⟩
    · exact .inr ⟨.inl hop, ht⟩
    · exact .inr ⟨.inr hop, ht⟩

/-! ### The channels -/

/-- IN leaves the output as it is, whether it stores or faults. -/
theorem exec_inp_out {d : Digit} {x : Nat} {s t : State} (h : exec (.inp d x) s = .next t) : t.out = s.out := by
  rcases exec_inp_cases h with ⟨r, rfl⟩ | ⟨p, v, -, -, -, rfl⟩ | ⟨p, v, -, -, -, rfl⟩ <;> simp

/-- OUT leaves the cursor and memory as they are, whether it emits or faults. -/
theorem exec_out_ic_mem {m0 : Digit} {x : Nat} {s t : State} (h : exec (.out m0 x) s = .next t) :
    t.ic = s.ic ∧ t.mem = s.mem := by
  rcases exec_out_cases h with ⟨r, -, rfl⟩ | ⟨v, -, rfl⟩ <;> simp

/-- Settles O55, by the frames of IN and OUT over every outcome, faults included. -/
theorem channelsAreIndependent : Obligations.ChannelsAreIndependent :=
  ⟨fun _ _ _ _ => exec_inp_out, fun _ _ _ _ => exec_out_ic_mem⟩

end Sys2Proof.Machine
end

section
/-! PROOFS. The checked accesses (spec/20_memory.md R53, R56) and the two modes of an operand (R54). -/

namespace Sys2Proof.Machine

/-! ### Accesses inside and outside memory -/

theorem not_inRange_of_outside {m : Memory} {a : Int} (h : a < 0 ∨ (m.len : Int) ≤ a) : ¬ m.inRange a = true := by
  rw [inRange_iff]
  omega

theorem memRead_outside {m : Memory} {a : Int} (h : a < 0 ∨ (m.len : Int) ≤ a) :
    memRead m a = .error ⟨.outOfBounds, a⟩ :=
  memRead_error.2 ⟨not_inRange_of_outside h, rfl⟩

theorem memRead_inside {m : Memory} {a : Int} (h0 : 0 ≤ a) (hlen : a < m.len) : memRead m a = .ok (m.get a.toNat) :=
  memRead_ok.2 ⟨inRange_iff.2 ⟨h0, hlen⟩, rfl⟩

theorem memWrite_outside {m : Memory} {a : Int} (v : Int) (h : a < 0 ∨ (m.len : Int) ≤ a) :
    memWrite m a v = .error ⟨.outOfBounds, a⟩ :=
  memWrite_error.2 ⟨not_inRange_of_outside h, rfl⟩

theorem memWrite_inside {m : Memory} {a : Int} (v : Int) (h0 : 0 ≤ a) (hlen : a < m.len) :
    memWrite m a v = .ok (m.set a.toNat v) :=
  memWrite_ok.2 ⟨inRange_iff.2 ⟨h0, hlen⟩, rfl⟩

/-- Settles O13: inside memory the write answers `Memory.set`, whose laws are the one cell changed and the others kept. -/
theorem writeChangesOneCell : Obligations.WriteChangesOneCell := by
  intro m a v
  refine ⟨memWrite_outside v, fun h0 hlen => ⟨m.set a.toNat v, memWrite_inside v h0 hlen, ?_, ?_, ?_⟩⟩
  · exact m.set_len a.toNat v
  · exact m.get_set_same a.toNat v
  · exact fun b hb => m.get_set_other v hb

/-! ### The reads of an operand -/

@[simp] theorem operand_immediate (m : Memory) (a : Int) : operand m a .immediate = memRead m a := rfl

theorem operand_position_of_ok {m : Memory} {a r : Int} (h : memRead m a = .ok r) :
    operand m a .position = memRead m r := by
  simp [operand, h]

theorem operand_position_of_error {m : Memory} {a : Int} {e : Raise} (h : memRead m a = .error e) :
    operand m a .position = .error e := by
  simp [operand, h]

/-- A destination resolves by one read of its parameter cell, whatever its digit (spec/30_encoding.md R89). -/
theorem resolveParam_destination {d : Descriptor} (s : State) {i : Nat} (dg : Digit) (hi : i ∈ d.writeParameterIndices) :
    resolveParam d s i dg = memRead s.mem (paramAddr s i) := by
  rw [resolveParam, if_pos hi, operand_immediate]

/-- A source whose digit names a mode resolves as the operand of that mode at its parameter cell. -/
theorem resolveParam_source {d : Descriptor} (s : State) {i : Nat} {dg : Digit} {mode : Mode}
    (hi : i ∉ d.writeParameterIndices) (hm : modeOfDigit dg = some mode) :
    resolveParam d s i dg = operand s.mem (paramAddr s i) mode := by
  simp [resolveParam, hi, hm]

/-- Settles O11: the checked read in both ranges, then each reader of memory as such a read. -/
theorem everyReadIsChecked : Obligations.EveryReadIsChecked :=
  ⟨fun _ _ => ⟨memRead_outside, memRead_inside⟩,
    fun _ => rfl,
    fun _ s _ dg hi => resolveParam_destination s dg hi,
    fun _ s _ _ _ hi hm => resolveParam_source s hi hm,
    operand_immediate,
    fun _ _ _ => operand_position_of_ok⟩

/-- Settles O12: the mode decides between one read and two, and the second read faults as any read outside memory does. -/
theorem operandModes : Obligations.OperandModes := by
  refine ⟨fun _ s _ _ _ hi hm => resolveParam_source s hi hm, fun m a =>
    ⟨operand_immediate m a, fun _ => operand_position_of_error, fun _ => operand_position_of_ok, fun r hr hout => ?_⟩⟩
  calc operand m a .position = memRead m r := operand_position_of_ok hr
    _ = .error ⟨.outOfBounds, r⟩ := memRead_outside hout

end Sys2Proof.Machine
end

section
/-! PROOFS. Mode digits and the instruction set table (spec/30_encoding.md R87 to R89, R95), and what a digit without a mode
or an opcode without a descriptor does to a step (R98 to R100). -/

namespace Sys2Proof.Machine

/-! ### Mode digits -/

theorem modeOfDigit_position {dg : Digit} (h : dg.val = 0) : modeOfDigit dg = some .position := by
  simp [modeOfDigit, h]

theorem modeOfDigit_immediate {dg : Digit} (h : dg.val = 1) : modeOfDigit dg = some .immediate := by
  simp [modeOfDigit, h]

theorem modeOfDigit_none {dg : Digit} (h : 2 ≤ dg.val) : modeOfDigit dg = none := by
  rcases modeOfDigit_cases dg with ⟨h0, -⟩ | ⟨h1, -⟩ | ⟨-, hm⟩
  · omega
  · omega
  · exact hm

/-- A digit the word is too short to have is 0 (spec/30_encoding.md R88). -/
theorem digit_of_short_word {w k : Nat} (h : w < 10 ^ k) : (digit w k).val = 0 := by
  rw [digit_val, Nat.div_eq_of_lt h]

/-- A source with mode digit 2 to 9 raises InvalidParameterMode with the digit before its cell is read. -/
theorem resolveParam_invalidMode {d : Descriptor} (s : State) {i : Nat} {dg : Digit} (hi : i ∉ d.writeParameterIndices)
    (h : 2 ≤ dg.val) : resolveParam d s i dg = .error ⟨.invalidParameterMode, (dg.val : Int)⟩ :=
  (resolveSource_error hi).2 (.inl ⟨h, rfl⟩)

/-- Settles O6: digit 0 is Position, and the absent digits of a short word are 0. -/
theorem shortWordsArePosition : Obligations.ShortWordsArePosition := by
  refine ⟨modeOfDigit_position rfl, modeOfDigit_immediate rfl, fun m => ?_, fun _ => modeOfDigit_none,
    fun w i hw => modeOfDigit_position (digit_of_short_word hw)⟩
  cases m with
  | position => exact .inl rfl
  | immediate => exact .inr rfl

/-- Settles O7: the mode is that of digit `i + 2`, and a digit 2 to 9 ends the resolution of a source. -/
theorem parameterModeIsItsDigit : Obligations.ParameterModeIsItsDigit := by
  refine ⟨fun w i => ?_, by decide, by decide⟩
  rw [← digit_val]
  exact ⟨modeOfDigit_position, modeOfDigit_immediate,
    fun h => ⟨modeOfDigit_none h, fun _ s hi => resolveParam_invalidMode s hi h⟩⟩

/-- Settles O14: a destination resolves by one read of its parameter cell, and a read raises OutOfBounds only. -/
theorem destinationDigitIgnored : Obligations.DestinationDigitIgnored := by
  intro d s i hi
  refine ⟨fun dg dg' => ?_, fun dg a => (resolveDest_ok hi).2, fun dg e he => ?_⟩
  · rw [resolveParam_destination s dg hi, resolveParam_destination s dg' hi]
  · obtain ⟨-, rfl⟩ := (resolveDest_error hi).1 he
    simp

/-! ### ADD, MUL, IN and OUT with a digit that is no mode -/

/-- ADD and MUL take the fault of their first source. -/
theorem arithmetic_of_first_error {d : Descriptor} {op : Int → Int → Int} {w : Int} {m0 m1 dg : Digit} {s : State}
    {r : Raise} (h : resolveParam d s 0 m0 = .error r) : arithmetic d op w m0 m1 dg s = .next (takeFault r s) := by
  simp [arithmetic, h]

/-- ADD and MUL take the fault of their second source once the first is read. -/
theorem arithmetic_of_second_error {d : Descriptor} {op : Int → Int → Int} {w a : Int} {m0 m1 dg : Digit} {s : State}
    {r : Raise} (h0 : resolveParam d s 0 m0 = .ok a) (h1 : resolveParam d s 1 m1 = .error r) :
    arithmetic d op w m0 m1 dg s = .next (takeFault r s) := by
  simp [arithmetic, h0, h1]

/-- OUT takes the fault of its source. -/
theorem exec_out_of_error {m0 : Digit} {x : Nat} {s : State} {r : Raise}
    (h : resolveParam outDescriptor s 0 m0 = .error r) : exec (.out m0 x) s = .next (takeFault r s) := by
  simp [exec, execOut, h]

/-- ADD and MUL with a first mode digit 2 to 9. -/
theorem arithmetic_invalidMode_first {d : Descriptor} {op : Int → Int → Int} {w : Int} {m0 m1 dg : Digit} {s : State}
    (hd : d.writeParameterIndices = [2]) (h : 2 ≤ m0.val) :
    arithmetic d op w m0 m1 dg s = .next (faultedAt s .invalidParameterMode (m0.val : Int)) :=
  arithmetic_of_first_error (resolveParam_invalidMode s (by simp [hd]) h)

/-- ADD and MUL with a readable first source and a second mode digit 2 to 9. -/
theorem arithmetic_invalidMode_second {d : Descriptor} {op : Int → Int → Int} {w a : Int} {m0 m1 dg : Digit} {s : State}
    (hd : d.writeParameterIndices = [2]) (ha : SourceIs s 0 m0 a) (h : 2 ≤ m1.val) :
    arithmetic d op w m0 m1 dg s = .next (faultedAt s .invalidParameterMode (m1.val : Int)) :=
  arithmetic_of_second_error ((resolveSource_ok (by simp [hd])).2 ha) (resolveParam_invalidMode s (by simp [hd]) h)

/-- IN has no source parameter: none of its faults is InvalidParameterMode (spec/30_encoding.md R100). -/
theorem exec_inp_not_invalidMode {d : Digit} {x : Nat} {s t : State} (hrun : s.run = .running)
    (h : exec (.inp d x) s = .next t) : ¬ t.endedBy .invalidParameterMode := by
  rcases exec_inp_next h with ⟨-, rfl⟩ | ⟨p, -, ⟨-, rfl⟩ | ⟨v, -, ⟨-, rfl⟩ | ⟨-, rfl⟩⟩⟩
  · simp
  · simp
  · simp
  · exact not_endedBy (by simp [hrun])

/-- Settles O42, parameter by parameter in the order of resolution. -/
theorem invalidModeDigitsFault : Obligations.InvalidModeDigitsFault :=
  ⟨fun _ _ _ _ _ h => ⟨arithmetic_invalidMode_first rfl h, arithmetic_invalidMode_first rfl h⟩,
    fun _ _ _ _ _ _ ha h => ⟨arithmetic_invalidMode_second rfl ha h, arithmetic_invalidMode_second rfl ha h⟩,
    fun _ _ s h => exec_out_of_error (resolveParam_invalidMode s (by decide) h),
    fun _ _ _ _ => exec_inp_not_invalidMode⟩

/-! ### Words without a descriptor -/

theorem lookup_eq_none {op : Nat} : lookup op = none ↔ ∀ d ∈ iset, d.opcode ≠ op := by
  simp [lookup]

theorem lookup_eq_some {op : Nat} {d : Descriptor} : lookup op = some d ↔ d ∈ iset ∧ d.opcode = op := by
  constructor
  · intro h
    exact ⟨List.mem_of_find?_eq_some h, by simpa using List.find?_some h⟩
  · rintro ⟨hd, rfl⟩
    revert d
    decide

/-- The step of a Running core at a word that does not decode (spec/30_encoding.md R82, R98). -/
theorem step_of_decode_error {s : State} {e : DecodeError} (hrun : s.run = .running) (hpc : s.pc < s.mem.len)
    (he : decode (s.mem.get s.pc) = .error e) : step s = .next (faultedAt s .unknownOpcode (s.mem.get s.pc)) := by
  have hf : fetch s = .ok (s.mem.get s.pc) := fetch_ok.2 ⟨hpc, rfl⟩
  simp [step, hrun, hf, he, takeFault_eq]

/-- The halt test comes before the lookup, and looks at the two low digits only (spec/30_encoding.md R99). -/
theorem step_of_halt_word {s : State} {n : Nat} (hrun : s.run = .running) (hpc : s.pc < s.mem.len)
    (hw : s.mem.get s.pc = n) (h99 : n % 100 = 99) : step s = .next { s with run := .halted } := by
  rw [step_of_decode hrun hpc (hw ▸ decode_halt h99)]
  rfl

/-- A word whose opcode has no descriptor faults with the whole word (spec/30_encoding.md R98). -/
theorem step_of_unregistered_word {s : State} {n : Nat} (hrun : s.run = .running) (hpc : s.pc < s.mem.len)
    (hw : s.mem.get s.pc = n) (h99 : n % 100 ≠ 99) (hl : lookup (n % 100) = none) :
    step s = .next (faultedAt s .unknownOpcode (n : Int)) := by
  rw [step_of_decode_error hrun hpc (hw ▸ decode_unregistered h99 hl), hw]

/-- Settles O8: the search of ISET by opcode, and the two steps of a word for which it finds nothing. -/
theorem lookupIsTheTable : Obligations.LookupIsTheTable :=
  ⟨fun _ _ => lookup_eq_some, fun _ => lookup_eq_none, by decide,
    fun _ _ hrun hpc hw => ⟨step_of_halt_word hrun hpc hw, step_of_unregistered_word hrun hpc hw⟩⟩

/-- Settles O21: a halt word decodes to HALT whatever its higher digits. -/
theorem haltWordsHalt : Obligations.HaltWordsHalt := by
  intro s hrun hpc hpos h99
  obtain ⟨n, hw⟩ := Int.eq_ofNat_of_zero_le hpos
  exact step_of_halt_word hrun hpc hw (by omega)

/-- Settles O19: ISET has the opcodes 1 to 4 only, so the lookup of any other finds nothing. -/
theorem unregisteredOpcodesFault : Obligations.UnregisteredOpcodesFault := by
  intro s hrun hpc hpos h1 h2 h3 h4 h99
  obtain ⟨n, hw⟩ := Int.eq_ofNat_of_zero_le hpos
  have hl : lookup (n % 100) = none := by
    refine Option.eq_none_iff_forall_ne_some.2 fun d hd => ?_
    rcases lookup_some.1 hd with ⟨h, -⟩ | ⟨h, -⟩ | ⟨h, -⟩ | ⟨h, -⟩ <;> omega
  rw [hw]
  exact step_of_unregistered_word hrun hpc hw (by omega) hl

end Sys2Proof.Machine
end

section
/-! PROOFS. The step cycle (spec/40_step_cycle.md): the fetch (R111), the resolution of all parameters before the handler
(R113, R116) and the advance by the descriptor (R117). -/

namespace Sys2Proof.Machine

/-! ### The fetch -/

/-- A Running core whose program counter is at or past LEN faults at the fetch. -/
theorem step_of_pc_outside {s : State} (hrun : s.run = .running) (hpc : s.mem.len ≤ s.pc) :
    step s = .next (faultedAt s .outOfBounds (s.pc : Int)) := by
  have hf : fetch s = .error ⟨.outOfBounds, (s.pc : Int)⟩ := fetch_error.2 ⟨hpc, rfl⟩
  simp [step, hrun, hf, takeFault_eq]

/-- The fetch sees a write just made to the cell at the program counter. -/
theorem fetch_of_memWrite {s : State} {m : Memory} {v : Int} (h : memWrite s.mem (s.pc : Int) v = .ok m) :
    fetch (setMem m s) = .ok v := by
  obtain ⟨hin, rfl⟩ := memWrite_ok.1 h
  exact fetch_ok.2 ⟨inRange_nat.1 hin, (s.mem.get_set_same s.pc v).symm⟩

/-- Settles O18: the fetch is the checked read at the program counter, and a bounded program counter is outside memory at LEN
only. -/
theorem fetchReadsLiveMemory : Obligations.FetchReadsLiveMemory := by
  refine ⟨fun _ hpc => fetch_ok.2 ⟨hpc, rfl⟩, fun _ _ _ => fetch_of_memWrite, fun _ => step_of_pc_outside, ?_⟩
  rintro s ⟨hle, -, -⟩
  simp only [fetch_error, exists_and_left, exists_eq, and_true]
  exact hle.ge_iff_eq

/-! ### The advance -/

/-- Settles O24: a step that stays Running is past the cells of the old word's descriptor, and only the next step's fetch looks
at where that is. -/
theorem advanceByDescriptor : Obligations.AdvanceByDescriptor := by
  intro s t h hrun
  refine ⟨?_, step_of_pc_outside hrun⟩
  rcases step_pc_cases h with ⟨r, u, -, rfl⟩ | ⟨-, -, -, rfl⟩ | ⟨-, hpos, op, d, hop, hd, ht⟩
  · simp at hrun
  · simp at hrun
  · have hword : (s.mem.get s.pc).toNat % 100 = op := by omega
    exact ⟨d, hword ▸ hd, ht⟩

/-! ### Resolution before the handler -/

/-- What a step makes of a handler's answer (spec/40_step_cycle.md R110 lines 6 and 7): its fault in the state it names, or its
state and the advance. -/
def finishHandler (d : Descriptor) : Except (Raise × State) State → Host.Outcome State Fault Refusal
  | .error (r, s) => .next (takeFault r s)
  | .ok s => .next (advance d s)

@[simp] theorem finishHandler_ok (d : Descriptor) (s : State) : finishHandler d (.ok s) = .next (advance d s) := rfl

@[simp] theorem finishHandler_error (d : Descriptor) (r : Raise) (s : State) :
    finishHandler d (.error (r, s)) = .next (takeFault r s) := rfl

theorem attempt_resolveAll_zero (d : Descriptor) (w : Nat) (s : State) (k : List Int → Host.Outcome State Fault Refusal) :
    attempt s (resolveAll d w s 0) k = k [] := rfl

/-- The parameters are resolved one after another, and the first fault ends it. -/
theorem attempt_resolveAll_succ (d : Descriptor) (w : Nat) (s : State) (n : Nat)
    (k : List Int → Host.Outcome State Fault Refusal) :
    attempt s (resolveAll d w s (n + 1)) k =
      attempt s (resolveAll d w s n) fun ps =>
        attempt s (resolveParam d s n (digit w (n + 2))) fun v => k (ps ++ [v]) := by
  cases hps : resolveAll d w s n with
  | error r => simp [resolveAll, hps]
  | ok ps => cases hv : resolveParam d s n (digit w (n + 2)) <;> simp [resolveAll, hps, hv]

theorem attempt_resolveAll_one (d : Descriptor) (w : Nat) (s : State) (k : List Int → Host.Outcome State Fault Refusal) :
    attempt s (resolveAll d w s 1) k = attempt s (resolveParam d s 0 (digit w 2)) fun v => k [v] :=
  attempt_resolveAll_succ d w s 0 k

/-- What the handlers of ADD and MUL share (spec/41_arithmetic.md R131 to R133): the range test of the result `r` and its write
at `p`. -/
def storeResult (r p w : Int) (s : State) : Except (Raise × State) State :=
  match checkedResult s.width w r with
  | .error e => .error (e, s)
  | .ok v =>
    match memWrite s.mem p v with
    | .error e => .error (e, s)
    | .ok m => .ok (setMem m s)

theorem handle_add (p : List Int) (w : Int) (s : State) :
    handle .add p w s = storeResult (p.getD 0 0 + p.getD 1 0) (p.getD 2 0) w s := rfl

theorem handle_mul (p : List Int) (w : Int) (s : State) :
    handle .mul p w s = storeResult (p.getD 0 0 * p.getD 1 0) (p.getD 2 0) w s := rfl

theorem finishHandler_storeResult (d : Descriptor) (r p w : Int) (s : State) :
    finishHandler d (storeResult r p w s) =
      attempt s (checkedResult s.width w r) fun v =>
        attempt s (memWrite s.mem p v) fun m => .next (advance d (setMem m s)) := by
  cases hr : checkedResult s.width w r with
  | error e => simp [storeResult, hr]
  | ok v => cases hm : memWrite s.mem p v <;> simp [storeResult, hr, hm]

/-- The handler of IN, given its resolved destination: the value taken, then the write in the state with the cursor moved. -/
theorem finishHandler_input (d : Descriptor) (p w : Int) (s : State) :
    finishHandler d (handle .input [p] w s) =
      attempt s (nextInput w s) fun taken =>
        attempt taken.2 (memWrite taken.2.mem p taken.1) fun m => .next (advance d (setMem m taken.2)) := by
  cases hv : nextInput w s with
  | error e => simp [handle, hv]
  | ok taken => cases hm : memWrite taken.2.mem p taken.1 <;> simp [handle, hv, hm]

/-- The handler of OUT cannot fault. -/
theorem finishHandler_output (d : Descriptor) (v w : Int) (s : State) :
    finishHandler d (handle .output [v] w s) = .next (advance d (emit v s)) := rfl

/-- ADD and MUL at the word `n` are the resolution of three parameters and then the store of the result. -/
theorem arithmetic_eq_resolveAll (d : Descriptor) (op : Int → Int → Int) (w : Int) (n : Nat) (s : State) :
    arithmetic d op w (digit n 2) (digit n 3) (digit n 4) s =
      attempt s (resolveAll d n s 3) fun p =>
        finishHandler d (storeResult (op (p.getD 0 0) (p.getD 1 0)) (p.getD 2 0) w s) := by
  simp only [arithmetic, attempt_resolveAll_succ, attempt_resolveAll_zero, finishHandler_storeResult]
  rfl

/-- IN at the word `n` is the resolution of its destination and then its handler. -/
theorem execInp_eq_resolveAll (n x : Nat) (s : State) :
    execInp (digit n 2) x s =
      attempt s (resolveAll inDescriptor n s 1) fun p =>
        finishHandler inDescriptor (handle .input p (encode (.inp (digit n 2) x)) s) := by
  simp only [attempt_resolveAll_one, finishHandler_input]
  rfl

/-- OUT at the word `n` is the resolution of its source and then its handler, whatever word the handler is given. -/
theorem execOut_eq_resolveAll (n x : Nat) (w : Int) (s : State) :
    execOut (digit n 2) x s =
      attempt s (resolveAll outDescriptor n s 1) fun p => finishHandler outDescriptor (handle .output p w s) := by
  simp only [attempt_resolveAll_one, finishHandler_output]
  rfl

/-- An instruction of the table resolves all its parameters and then runs its descriptor's handler on the list: the arm of
`exec` for the fields of a word is lines 5 to 7 of R110. -/
theorem exec_fieldsOf {d : Descriptor} (n : Nat) (s : State) (hd : d ∈ iset) :
    exec (fieldsOf d.handler n) s =
      attempt s (resolveAll d n s d.parameterCount) fun p =>
        finishHandler d (handle d.handler p (encode (fieldsOf d.handler n)) s) := by
  simp only [iset, List.mem_cons, List.not_mem_nil, or_false] at hd
  rcases hd with rfl | rfl | rfl | rfl
  · exact arithmetic_eq_resolveAll addDescriptor (fun a b => a + b) _ n s
  · exact arithmetic_eq_resolveAll mulDescriptor (fun a b => a * b) _ n s
  · exact execInp_eq_resolveAll n (n / 1000) s
  · exact execOut_eq_resolveAll n (n / 1000) _ s

/-- The fields of a word under its own descriptor make up that word again: no digit is dropped (spec/30_encoding.md R84). -/
theorem encode_fieldsOf {n : Nat} {d : Descriptor} (hl : lookup (n % 100) = some d) :
    encode (fieldsOf d.handler n) = (n : Int) := by
  rcases lookup_some.1 hl with ⟨hop, rfl⟩ | ⟨hop, rfl⟩ | ⟨hop, rfl⟩ | ⟨hop, rfl⟩ <;>
    simp only [addDescriptor, mulDescriptor, inDescriptor, outDescriptor, fieldsOf, encode, encodeNat, digit_val] <;>
    omega

/-- The step at a word with a descriptor. -/
theorem step_of_lookup {s : State} {n : Nat} {d : Descriptor} (hrun : s.run = .running) (hpc : s.pc < s.mem.len)
    (hw : s.mem.get s.pc = n) (hl : lookup (n % 100) = some d) :
    step s = attempt s (resolveAll d n s d.parameterCount) fun p => finishHandler d (handle d.handler p (n : Int) s) := by
  rw [step_of_decode hrun hpc (hw ▸ decode_of_lookup hl), exec_fieldsOf n s (lookup_eq_some.1 hl).1, encode_fieldsOf hl]

/-- The shared part of ADD and MUL answers the state with another memory. -/
theorem storeResult_ok {r p w : Int} {s t : State} (h : storeResult r p w s = .ok t) : ∃ m, t = setMem m s := by
  unfold storeResult at h
  split at h
  · cases h
  split at h
  · cases h
  next m _ => exact ⟨m, (Except.ok.inj h).symm⟩

/-- No handler moves the program counter. -/
theorem handle_pc {h : Handler} {p : List Int} {w : Int} {s t : State} (ht : handle h p w s = .ok t) : t.pc = s.pc := by
  cases h with
  | add =>
    obtain ⟨m, rfl⟩ := storeResult_ok (handle_add p w s ▸ ht)
    rfl
  | mul =>
    obtain ⟨m, rfl⟩ := storeResult_ok (handle_mul p w s ▸ ht)
    rfl
  | input =>
    simp only [handle] at ht
    split at ht
    · cases ht
    next v u hv =>
      obtain ⟨-, rfl⟩ := nextInput_ok.1 hv
      split at ht
      · cases ht
      · cases ht
        rfl
  | output =>
    cases ht
    rfl

/-- Settles O25: the step is the resolution of every parameter and then the handler, and no handler moves the program
counter. -/
theorem resolutionFaultsComeFirst : Obligations.ResolutionFaultsComeFirst := by
  intro s d hrun hpc hpos hl
  obtain ⟨n, hw⟩ := Int.eq_ofNat_of_zero_le hpos
  rw [hw, Int.toNat_natCast] at hl ⊢
  have hstep := step_of_lookup hrun hpc hw hl
  refine ⟨fun r hr => ?_, fun p hp => ⟨resolveAll_length hp, fun s' hs' => ?_, fun r s' hs' => ?_⟩⟩
  · rw [hstep, hr, attempt_error, takeFault_eq]
  · rw [hstep, hp, attempt_ok, hs', finishHandler_ok, advance, handle_pc hs']
    rfl
  · rw [hstep, hp, attempt_ok, hs', finishHandler_error]

end Sys2Proof.Machine
end

section
/-! PROOFS. The channels (spec/42_io.md): NextInput (R141), Emit (R144) and the step of OUT (R145). -/

namespace Sys2Proof.Machine

/-! ### The step of OUT -/

/-- A word with opcode 4 is an OUT whose mode digit is its digit 2. -/
theorem decode_out {n : Nat} (h : n % 100 = 4) : decode (n : Int) = .ok (.out (digit n 2) (n / 1000)) :=
  decode_of_lookup (lookup_some.2 (.inr (.inr (.inr ⟨h, rfl⟩))))

/-- A source that has a mode and whose parameter cell is past the end raises OutOfBounds with the cell's address. -/
theorem resolveParam_cell_outside {d : Descriptor} {s : State} {i : Nat} {dg : Digit} (hi : i ∉ d.writeParameterIndices)
    (hdg : dg.val < 2) (h : s.mem.len ≤ s.pc + i + 1) :
    resolveParam d s i dg = .error ⟨.outOfBounds, paramAddr s i⟩ :=
  (resolveSource_error hi).2 (.inr (.inl ⟨hdg, by omega, rfl⟩))

/-- A Position source whose raw value is no address of memory raises OutOfBounds with the raw value. -/
theorem resolveParam_target_outside {d : Descriptor} {s : State} {i : Nat} {dg : Digit} (hi : i ∉ d.writeParameterIndices)
    (hdg : dg.val = 0) (h : s.pc + i + 1 < s.mem.len) (hout : s.mem.inRange (rawParam s i) = false) :
    resolveParam d s i dg = .error ⟨.outOfBounds, rawParam s i⟩ :=
  (resolveSource_error hi).2 (.inr (.inr ⟨hdg, h, by simp [hout], rfl⟩))

/-- OUT with a readable source appends its operand and advances over its descriptor's cells. -/
theorem exec_out_of_source {m0 : Digit} {x : Nat} {s : State} {v : Int} (h : SourceIs s 0 m0 v) :
    exec (.out m0 x) s = .next (advance outDescriptor (emit v s)) := by
  have hr : resolveParam outDescriptor s 0 m0 = .ok v := (resolveSource_ok (by decide)).2 h
  simp [exec, execOut, hr]

/-- Settles O37: OUT emits what its source resolves to, and takes each fault of that resolution. -/
theorem outEmitsOperand : Obligations.OutEmitsOperand := by
  refine ⟨fun w hw => ⟨digit w 2, w / 1000, decode_out hw, digit_val w 2⟩, fun m0 x s => ⟨?_, ?_, ?_, ?_⟩⟩
  · exact fun v => exec_out_of_source
  · exact fun hdg => exec_out_of_error (resolveParam_invalidMode s (by decide) hdg)
  · exact fun hdg hlen => exec_out_of_error (resolveParam_cell_outside (by decide) hdg hlen)
  · exact fun hdg hlen hout => exec_out_of_error (resolveParam_target_outside (by decide) hdg hlen hout)

/-! ### Which step uses which channel -/

/-- ADD and MUL leave both channels as they are, whether they store or fault. -/
theorem arithmetic_ic_out {d : Descriptor} {op : Int → Int → Int} {w : Int} {m0 m1 dg : Digit} {s t : State}
    (hd : d.writeParameterIndices = [2]) (h : arithmetic d op w m0 m1 dg s = .next t) : t.ic = s.ic ∧ t.out = s.out := by
  rcases arithmetic_cases hd h with ⟨r, rfl⟩ | ⟨a, b, p, -, -, -, -, -, rfl⟩ <;> simp

/-- IN leaves the cursor where it is, or moves it by one over a value that was there to take. -/
theorem exec_inp_ic {d : Digit} {x : Nat} {s t : State} (h : exec (.inp d x) s = .next t) :
    t.ic = s.ic ∨ (t.ic = s.ic + 1 ∧ s.ic < s.inp.length) := by
  rcases exec_inp_cases h with ⟨r, rfl⟩ | ⟨p, v, -, hv, -, rfl⟩ | ⟨p, v, -, hv, -, rfl⟩
  · exact .inl rfl
  · exact .inr ⟨rfl, (List.getElem?_eq_some_iff.1 hv).1⟩
  · exact .inr ⟨rfl, (List.getElem?_eq_some_iff.1 hv).1⟩

/-- An instruction leaves the cursor where it is, or is an IN that took the value there. -/
theorem exec_ic_cases {i : Instr} {s t : State} (h : exec i s = .next t) :
    t.ic = s.ic ∨ (t.ic = s.ic + 1 ∧ s.ic < s.inp.length ∧ ∃ d x, i = .inp d x) := by
  cases i with
  | add m0 m1 d x => exact .inl (arithmetic_ic_out rfl h).1
  | mul m0 m1 d x => exact .inl (arithmetic_ic_out rfl h).1
  | inp d x => exact (exec_inp_ic h).imp_right fun ⟨hic, hlt⟩ => ⟨hic, hlt, d, x, rfl⟩
  | out m0 x => exact .inl (exec_out_ic_mem h).1
  | halt x => exact .inl (exec_halt_cases h ▸ haltRun_ic s)

/-- An instruction leaves the output as it is, or is an OUT that appended its operand. -/
theorem exec_output_cases {i : Instr} {s t : State} (h : exec i s = .next t) :
    t.out = s.out ∨ ∃ m0 x v, i = .out m0 x ∧ SourceIs s 0 m0 v ∧ t.out = s.out ++ [v] := by
  cases i with
  | add m0 m1 d x => exact .inl (arithmetic_ic_out rfl h).2
  | mul m0 m1 d x => exact .inl (arithmetic_ic_out rfl h).2
  | inp d x => exact .inl (exec_inp_out h)
  | out m0 x =>
    rcases exec_out_cases h with ⟨r, -, rfl⟩ | ⟨v, hv, rfl⟩
    · exact .inl rfl
    · exact .inr ⟨m0, x, v, rfl, hv, rfl⟩
  | halt x => exact .inl (exec_halt_cases h ▸ haltRun_out s)

/-- A step takes a fault before any instruction has run, or is the instruction its word decodes to. -/
theorem step_fault_or_exec {s t : State} (h : step s = .next t) :
    (∃ r, t = takeFault r s) ∨ ∃ i, decode (s.mem.get s.pc) = .ok i ∧ exec i s = .next t := by
  obtain ⟨-, ⟨-, ht⟩ | ⟨-, -, ht⟩ | ⟨-, i, hi, hx⟩⟩ := step_cases h
  · exact .inl ⟨_, ht⟩
  · exact .inl ⟨_, ht⟩
  · exact .inr ⟨i, hi, hx⟩

/-- Settles O52: the two answers of NextInput, and the cursor over the fault or the instruction a step is. -/
theorem inputConsumedInOrder : Obligations.InputConsumedInOrder := by
  refine ⟨fun w s hlen => nextInput_error.2 ⟨hlen, rfl⟩, fun w v s hv => nextInput_ok.2 ⟨hv, rfl⟩, fun s t h => ?_⟩
  rcases step_fault_or_exec h with ⟨r, rfl⟩ | ⟨i, hi, hx⟩
  · exact .inl rfl
  rcases exec_ic_cases hx with hic | ⟨hic, hlt, d, x, rfl⟩
  · exact .inl hic
  · exact .inr ⟨hic, hlt, d, x, hi⟩

/-- Settles O53: Emit is one field's update, and the output over the fault or the instruction a step is. -/
theorem outputIsAppendOnly : Obligations.OutputIsAppendOnly := by
  refine ⟨fun _ _ => rfl, fun s t h => ?_⟩
  rcases step_fault_or_exec h with ⟨r, rfl⟩ | ⟨i, hi, hx⟩
  · exact .inl rfl
  rcases exec_output_cases hx with hout | ⟨m0, x, v, rfl, hv, hout⟩
  · exact .inl hout
  · exact .inr ⟨m0, x, v, hi, hv, hout⟩

end Sys2Proof.Machine
end

section
/-! PROOFS. Halted (spec/43_halt.md): what ends there (R152), what the host collects there, and the reset that leaves it. -/

namespace Sys2Proof.Machine

/-- The host is given a final memory and output exactly at Halted, and they are the state's own. -/
theorem collect_finished {s : State} {fm out : List Int} :
    collect s = .finished fm out ↔ s.run = .halted ∧ fm = s.mem.toList ∧ out = s.out := by
  cases hrun : s.run with
  | running => simp [collect, hrun]
  | halted => simp [collect, hrun, eq_comm]
  | faulted => cases hfault : s.fault <;> simp [collect, hrun, hfault]

/-- The reset event reads of the state it discards only the width of the build. -/
theorem hostReset_of_width_eq {s s' : State} (h : s'.width = s.width) (p inp : List Int) :
    hostReset s p inp = hostReset s' p inp := by
  simp only [hostReset, h]

/-- Settles O22: a step starts from Running only, and the answers of collect and of the reset event. -/
theorem haltedIsTerminal : Obligations.HaltedIsTerminal := by
  refine ⟨fun s t hhalt hstep => ?_, fun s hhalt => ?_, fun s fm out hfin => ?_, fun s s' p inp _ hw => ?_⟩
  · have hrun : s.run = .running := (step_cases hstep).1
    cases hhalt.symm.trans hrun
  · exact collect_finished.2 ⟨hhalt, rfl, rfl⟩
  · exact (collect_finished.1 hfin).1
  · exact hostReset_of_width_eq hw p inp

end Sys2Proof.Machine
end

section
/-! PROOFS. OutOfBounds (spec/60_exceptions.md R161): that it has no cause but a parameter cell past the end or an address a
parameter names, and that each of these raises it. -/

namespace Sys2Proof.Machine

/-! ### The causes -/

/-- `v` is the address of a parameter cell past the end of memory, of an instruction with `n` parameters. -/
def CellPastEnd (s : State) (n : Nat) (v : Int) : Prop := ∃ k, k < n ∧ s.mem.len ≤ s.pc + k + 1 ∧ v = paramAddr s k

/-- `v` is an address the parameters of an ADD or MUL name: a Position source's raw value or the destination. -/
def ArithmeticAddress (s : State) (m0 m1 : Digit) (v : Int) : Prop :=
  (m0.val = 0 ∧ v = rawParam s 0) ∨ (m1.val = 0 ∧ v = rawParam s 1) ∨ v = rawParam s 2

/-- `v` is an address outside memory that a parameter of the instruction names. -/
def NamedOutside (s : State) (i : Instr) (v : Int) : Prop :=
  s.mem.inRange v = false ∧
    match i with
    | .add m0 m1 _ _ => ArithmeticAddress s m0 m1 v
    | .mul m0 m1 _ _ => ArithmeticAddress s m0 m1 v
    | .inp _ _ => v = rawParam s 0
    | .out m0 _ => m0.val = 0 ∧ v = rawParam s 0
    | .halt _ => False

theorem outside_of_not_inRange {m : Memory} {a : Int} (h : m.inRange a = false) : a < 0 ∨ (m.len : Int) ≤ a := by
  rw [Bool.eq_false_iff, Ne, inRange_iff] at h
  omega

/-- The address of a parameter cell past the end of memory is outside memory. -/
theorem CellPastEnd.outside {s : State} {n : Nat} {v : Int} (h : CellPastEnd s n v) : v < 0 ∨ (s.mem.len : Int) ≤ v := by
  obtain ⟨k, -, hlen, rfl⟩ := h
  exact .inr (by simp only [paramAddr]; omega)

/-- The longest instructions of the table are ADD and MUL. -/
theorem length_le_four (i : Instr) : i.length ≤ 4 := by
  unfold Instr.length
  split
  next d hd => rcases lookup_some.1 hd with ⟨-, rfl⟩ | ⟨-, rfl⟩ | ⟨-, rfl⟩ | ⟨-, rfl⟩ <;> decide
  next => decide

/-- A source that raises OutOfBounds has its cell past the end, or is Position with its raw value outside memory. -/
theorem resolveSource_outOfBounds {d : Descriptor} {s : State} {i : Nat} {dg : Digit} {r : Raise}
    (hi : i ∉ d.writeParameterIndices) (h : resolveParam d s i dg = .error r) (hk : r.kind = .outOfBounds) :
    (s.mem.len ≤ s.pc + i + 1 ∧ r.value = paramAddr s i) ∨
    (s.mem.inRange r.value = false ∧ dg.val = 0 ∧ r.value = rawParam s i) := by
  rcases (resolveSource_error hi).1 h with ⟨-, rfl⟩ | ⟨-, hlen, rfl⟩ | ⟨hdg, -, hout, rfl⟩
  · cases hk
  · exact .inl ⟨not_lt.1 hlen, rfl⟩
  · exact .inr ⟨by simpa using hout, hdg, rfl⟩

section
variable {s t : State} {r : FaultRecord}

/-- ADD and MUL in OutOfBounds: a source's cell or address, the destination's cell, or the destination. -/
theorem arithmetic_outOfBounds_cause {d : Descriptor} {op : Int → Int → Int} {w : Int} {m0 m1 dg : Digit}
    (hd : d.writeParameterIndices = [2]) (h : arithmetic d op w m0 m1 dg s = .next t) (hrun : s.run = .running)
    (ht : t.run = .faulted) (hr : t.fault = some r) (hk : r.kind = .outOfBounds) :
    CellPastEnd s 3 r.value ∨ (s.mem.inRange r.value = false ∧ ArithmeticAddress s m0 m1 r.value) := by
  rcases arithmetic_next hd h with ⟨e, he, rfl⟩ | ⟨a, -, ⟨e, he, rfl⟩ | ⟨b, -, ⟨e, he, rfl⟩ |
    ⟨p, hp, ⟨-, rfl⟩ | ⟨-, hout, rfl⟩ | ⟨-, -, rfl⟩⟩⟩⟩
  · cases hr
    rcases resolveSource_outOfBounds (by simp [hd]) he hk with ⟨hlen, hv⟩ | ⟨hout, hm, hv⟩
    · exact .inl ⟨0, by decide, hlen, hv⟩
    · exact .inr ⟨hout, .inl ⟨hm, hv⟩⟩
  · cases hr
    rcases resolveSource_outOfBounds (by simp [hd]) he hk with ⟨hlen, hv⟩ | ⟨hout, hm, hv⟩
    · exact .inl ⟨1, by decide, hlen, hv⟩
    · exact .inr ⟨hout, .inr (.inl ⟨hm, hv⟩)⟩
  · cases hr
    obtain ⟨hlen, rfl⟩ := (resolveDest_error (by simp [hd])).1 he
    exact .inl ⟨2, by decide, not_lt.1 hlen, rfl⟩
  · cases hr
    cases hk
  · cases hr
    exact .inr ⟨hout, .inr (.inr hp.2)⟩
  · simp [hrun] at ht

/-- An instruction that ends in OutOfBounds reports one of its parameter cells or an address one of them names. -/
theorem exec_outOfBounds_cause {i : Instr} (h : exec i s = .next t) (hrun : s.run = .running)
    (ht : t.run = .faulted) (hr : t.fault = some r) (hk : r.kind = .outOfBounds) :
    CellPastEnd s (i.length - 1) r.value ∨ NamedOutside s i r.value := by
  cases i with
  | add m0 m1 d x => exact arithmetic_outOfBounds_cause rfl h hrun ht hr hk
  | mul m0 m1 d x => exact arithmetic_outOfBounds_cause rfl h hrun ht hr hk
  | inp d x =>
    rcases exec_inp_next h with ⟨hlen, rfl⟩ | ⟨p, hp, ⟨-, rfl⟩ | ⟨v, -, ⟨hout, rfl⟩ | ⟨-, rfl⟩⟩⟩
    · cases hr
      exact .inl ⟨0, Nat.zero_lt_one, hlen, rfl⟩
    · cases hr
      cases hk
    · cases hr
      exact .inr ⟨hout, hp.2⟩
    · simp [hrun] at ht
  | out m0 x =>
    rcases exec_out_cases h with ⟨e, he, rfl⟩ | ⟨v, -, rfl⟩
    · cases hr
      rcases resolveSource_outOfBounds (by decide) he hk with ⟨hlen, hv⟩ | hnamed
      · exact .inl ⟨0, Nat.zero_lt_one, hlen, hv⟩
      · exact .inr hnamed
    · simp [hrun] at ht
  | halt x =>
    rw [exec_halt_cases h] at ht
    cases ht

/-- A step that ends in OutOfBounds does so at the fetch, or is an instruction with one of the two causes. -/
theorem step_outOfBounds_cause (h : step s = .next t) (ht : t.run = .faulted) (hr : t.fault = some r)
    (hk : r.kind = .outOfBounds) :
    (s.mem.len ≤ s.pc ∧ r.value = s.pc) ∨
    (s.pc < s.mem.len ∧ ∃ i, decode (s.mem.get s.pc) = .ok i ∧
      (CellPastEnd s (i.length - 1) r.value ∨ NamedOutside s i r.value)) := by
  obtain ⟨hrun, ⟨hpc, rfl⟩ | ⟨-, -, rfl⟩ | ⟨hpc, i, hi, hx⟩⟩ := step_cases h
  · cases hr
    exact .inl ⟨hpc, rfl⟩
  · cases hr
    cases hk
  · exact .inr ⟨hpc, i, hi, exec_outOfBounds_cause hx hrun ht hr hk⟩

end

/-! ### ADD and MUL raise it -/

section
variable {d : Descriptor} {op : Int → Int → Int} {w a b p : Int} {m0 m1 dg : Digit} {s : State}

/-- ADD and MUL take the fault of their destination's cell once both sources are read. -/
theorem arithmetic_of_third_error {r : Raise} (h0 : resolveParam d s 0 m0 = .ok a) (h1 : resolveParam d s 1 m1 = .ok b)
    (h2 : resolveParam d s 2 dg = .error r) : arithmetic d op w m0 m1 dg s = .next (takeFault r s) := by
  simp [arithmetic, h0, h1, h2]

/-- ADD and MUL whose result is a word and whose destination is outside memory fault at the write. -/
theorem arithmetic_of_bad_destination (hd : d.writeParameterIndices = [2]) (ha : SourceIs s 0 m0 a)
    (hb : SourceIs s 1 m1 b) (hp : DestIs s 2 p) (hf : s.width.fits (op a b) = true) (hout : s.mem.inRange p = false) :
    arithmetic d op w m0 m1 dg s = .next (faultedAt s .outOfBounds p) := by
  have h0 : resolveParam d s 0 m0 = .ok a := (resolveSource_ok (by simp [hd])).2 ha
  have h1 : resolveParam d s 1 m1 = .ok b := (resolveSource_ok (by simp [hd])).2 hb
  have h2 : resolveParam d s 2 dg = .ok p := (resolveDest_ok (by simp [hd])).2 hp
  have hr : checkedResult s.width w (op a b) = .ok (op a b) := checkedResult_ok.2 ⟨hf, rfl⟩
  have hm : memWrite s.mem p (op a b) = .error ⟨.outOfBounds, p⟩ := memWrite_error.2 ⟨by simp [hout], rfl⟩
  simp [arithmetic, h0, h1, h2, hr, hm, takeFault_eq]

end

/-- The step at an ADD or a MUL is their shared operation, with the sum or the product. -/
theorem step_of_arithmetic_word {s : State} {m0 m1 dg : Digit} {x : Nat} (hrun : s.run = .running)
    (hpc : s.pc < s.mem.len)
    (hw : decode (s.mem.get s.pc) = .ok (.add m0 m1 dg x) ∨ decode (s.mem.get s.pc) = .ok (.mul m0 m1 dg x)) :
    ∃ (d : Descriptor) (op : Int → Int → Int) (w : Int), d.writeParameterIndices = [2] ∧
      step s = arithmetic d op w m0 m1 dg s ∧
      ((decode (s.mem.get s.pc) = .ok (.add m0 m1 dg x) ∧ op = (· + ·)) ∨
       (decode (s.mem.get s.pc) = .ok (.mul m0 m1 dg x) ∧ op = (· * ·))) := by
  rcases hw with hw | hw
  · exact ⟨addDescriptor, _, _, rfl, step_of_decode hrun hpc hw, .inl ⟨hw, rfl⟩⟩
  · exact ⟨mulDescriptor, _, _, rfl, step_of_decode hrun hpc hw, .inr ⟨hw, rfl⟩⟩

/-! ### IN raises it -/

/-- IN takes the fault of its destination's cell. -/
theorem exec_inp_of_cell_outside {s : State} (d : Digit) (x : Nat) (h : s.mem.len ≤ s.pc + 1) :
    exec (.inp d x) s = .next (faultedAt s .outOfBounds (paramAddr s 0)) := by
  have hr : resolveParam inDescriptor s 0 d = .error ⟨.outOfBounds, paramAddr s 0⟩ :=
    (resolveDest_error (by decide)).2 ⟨not_lt.2 h, rfl⟩
  simp [exec, execInp, hr, takeFault_eq]

/-- IN with an input value left and its destination outside memory faults at the write, with the cursor moved. -/
theorem exec_inp_of_bad_destination {s : State} {p : Int} (d : Digit) (x : Nat) (hp : DestIs s 0 p)
    (hic : s.ic < s.inp.length) (hout : s.mem.inRange p = false) :
    exec (.inp d x) s = .next (faultedAt (moveCursor s) .outOfBounds p) := by
  have hr : resolveParam inDescriptor s 0 d = .ok p := (resolveDest_ok (by decide)).2 hp
  have hv : nextInput (encode (.inp d x)) s = .ok (s.inp[s.ic], moveCursor s) :=
    nextInput_ok.2 ⟨List.getElem?_eq_getElem hic, rfl⟩
  have hm : memWrite (moveCursor s).mem p s.inp[s.ic] = .error ⟨.outOfBounds, p⟩ :=
    memWrite_error.2 ⟨by simp [hout], rfl⟩
  simp only [exec, execInp, hr, hv, attempt_ok, hm, attempt_error, takeFault_eq]

/-- Settles O46: a step in OutOfBounds is at the fetch, at a parameter cell or at an address a parameter names; and the fetch,
then the reads and the write of each instruction, raise it. -/
theorem outOfBoundsCauses : Obligations.OutOfBoundsCauses := by
  refine ⟨fun s t r hb h ht hr hk => ?_, fun s hrun hpc => step_of_pc_outside hrun hpc.ge,
    fun s m0 m1 d x hrun hpc h0 h1 hw => ?_, fun s d x hrun hpc hw => ?_, fun s m0 x hrun hpc h0 hw => ?_⟩
  · obtain ⟨hle, -, -⟩ := hb
    rcases step_outOfBounds_cause h ht hr hk with ⟨hpc, hv⟩ | ⟨hpc, i, hi, hcell | ⟨hout, hnamed⟩⟩
    · exact ⟨.inr (by omega), .inl ⟨hv, le_antisymm hle hpc⟩⟩
    · refine ⟨hcell.outside, .inr (.inl ?_)⟩
      obtain ⟨k, hk, -, hv⟩ := hcell
      have hlen := length_le_four i
      simp only [paramAddr] at hv
      exact ⟨i, k, hi, by omega, hv, by omega⟩
    · refine ⟨outside_of_not_inRange hout, .inr (.inr ?_)⟩
      cases i with
      | add m0 m1 d x => exact .inl ⟨m0, m1, d, x, .inl hi, hnamed⟩
      | mul m0 m1 d x => exact .inl ⟨m0, m1, d, x, .inr hi, hnamed⟩
      | inp d x => exact .inr (.inl ⟨d, x, hi, hnamed⟩)
      | out m0 x => exact .inr (.inr ⟨m0, x, hi, hnamed⟩)
      | halt x => exact hnamed.elim
  · obtain ⟨dsc, op, w, hd, hstep, hop⟩ := step_of_arithmetic_word hrun hpc hw
    have hi0 : 0 ∉ dsc.writeParameterIndices := by simp [hd]
    have hi1 : 1 ∉ dsc.writeParameterIndices := by simp [hd]
    have hi2 : 2 ∈ dsc.writeParameterIndices := by simp [hd]
    rw [hstep]
    refine ⟨fun hlen => arithmetic_of_first_error (resolveParam_cell_outside hi0 h0 hlen),
      fun hm hlen hout => arithmetic_of_first_error (resolveParam_target_outside hi0 hm hlen hout), fun a ha => ?_⟩
    have hra := (resolveSource_ok hi0).2 ha
    refine ⟨fun hlen => arithmetic_of_second_error hra (resolveParam_cell_outside hi1 h1 hlen),
      fun hm hlen hout => arithmetic_of_second_error hra (resolveParam_target_outside hi1 hm hlen hout), fun b hb => ?_⟩
    have hrb := (resolveSource_ok hi1).2 hb
    refine ⟨fun hlen => arithmetic_of_third_error hra hrb ((resolveDest_error hi2).2 ⟨not_lt.2 hlen, rfl⟩),
      fun p hp hout hadd hmul => arithmetic_of_bad_destination hd ha hb hp ?_ hout⟩
    rcases hop with ⟨hword, rfl⟩ | ⟨hword, rfl⟩
    · exact hadd hword
    · exact hmul hword
  · rw [step_of_decode hrun hpc hw]
    exact ⟨exec_inp_of_cell_outside d x,
      fun p hp hic hout => ⟨_, exec_inp_of_bad_destination d x hp hic hout, rfl, rfl⟩⟩
  · rw [step_of_decode hrun hpc hw]
    exact ⟨fun hlen => exec_out_of_error (resolveParam_cell_outside (by decide) h0 hlen),
      fun hm hlen hout => exec_out_of_error (resolveParam_target_outside (by decide) hm hlen hout)⟩

end Sys2Proof.Machine
end

section
/-! PROOFS. The reset event (spec/70_reset_and_hazards.md R201, R202): the one state it gives, when it gives it, and that the
program is all its memory holds. -/

namespace Sys2Proof.Machine

/-- The reset event answers a state exactly where R201 gives it a meaning, and then the one state R201 lists. -/
theorem hostReset_next {s t : State} {p inp : List Int} :
    hostReset s p inp = .next t ↔
      s.width.supported = true ∧ (∀ v ∈ p ++ inp, s.width.fits v = true) ∧
        t = ⟨s.width, Memory.ofList p, 0, .running, none, 0, inp, []⟩ := by
  have hguard : (s.width.supported && p.all s.width.fits && inp.all s.width.fits) = true ↔
      s.width.supported = true ∧ ∀ v ∈ p ++ inp, s.width.fits v = true := by
    simp only [Bool.and_eq_true, List.all_eq_true, List.forall_mem_append, and_assoc]
  unfold hostReset
  split
  next hok =>
    obtain ⟨hw, hfits⟩ := hguard.1 hok
    exact ⟨fun ht => ⟨hw, hfits, (Host.Outcome.next.inj ht).symm⟩, fun ⟨_, _, ht⟩ => congrArg _ ht.symm⟩
  next hbad => exact iff_of_false nofun fun ⟨hw, hfits, _⟩ => hbad (hguard.2 ⟨hw, hfits⟩)

/-- Every cell of the program is the program's word: `M[a] = P[a]`. -/
theorem Memory.getElem?_eq_ofList_get {p : List Int} {a : Nat} (ha : a < p.length) :
    p[a]? = some ((Memory.ofList p).get a) := by
  simp [Memory.ofList_get, ha]

/-- Settles O30: the state R201 lists for words, and no state where one value is no word. -/
theorem hostResetState : Obligations.HostResetState := by
  refine fun s p inp hw => ⟨fun hp hi => ?_, fun ⟨v, hv, hbad⟩ t ht => ?_⟩
  · have hreset := hostReset_next.2 ⟨hw, List.forall_mem_append.2 ⟨hp, hi⟩, rfl⟩
    exact ⟨_, hreset, Memory.ofList_len p, fun a ha => Memory.getElem?_eq_ofList_get ha,
      rfl, rfl, rfl, rfl, rfl, rfl, rfl⟩
  · obtain ⟨-, hfits, -⟩ := hostReset_next.1 ht
    exact Bool.false_ne_true (hbad.symm.trans (hfits v hv))

/-- Settles O31: the reset event reads only the width, and the memory it gives is the program and ends with it. -/
theorem resetIsComplete : Obligations.ResetIsComplete := by
  refine fun s s' p inp hw => ⟨hostReset_of_width_eq hw.symm p inp, fun t ht => ?_⟩
  obtain ⟨-, -, rfl⟩ := hostReset_next.1 ht
  exact ⟨Memory.toList_ofList p, fun a ha => memRead_outside (.inr ha)⟩

end Sys2Proof.Machine
end

section
/-! PROOFS. The encoder and the decoder (spec/30_encoding.md R81 to R84, R104, R107): each undoes the other. -/

namespace Sys2Proof

/-! ### What the decoder answers -/

theorem lookup_none {op : Nat} : lookup op = none ↔ op ≠ 1 ∧ op ≠ 2 ∧ op ≠ 3 ∧ op ≠ 4 := by
  rw [Option.eq_none_iff_forall_ne_some]
  simp only [ne_eq, lookup_some, not_or, not_and, forall_and, forall_eq_apply_imp_iff]

/-- A word that decodes is a halt word, or one with a descriptor whose fields the instruction holds. -/
theorem decode_ok_cases {w : Int} {i : Instr} (h : decode w = .ok i) :
    ∃ n : Nat, w = n ∧
      ((n % 100 = 99 ∧ i = .halt (n / 100)) ∨ ∃ d, lookup (n % 100) = some d ∧ i = fieldsOf d.handler n) := by
  obtain ⟨n, rfl⟩ := Int.eq_ofNat_of_zero_le (decode_ok h).1
  refine ⟨n, rfl, ?_⟩
  by_cases hhalt : n % 100 = 99
  · exact .inl ⟨hhalt, (Except.ok.inj ((decode_halt hhalt).symm.trans h)).symm⟩
  cases hl : lookup (n % 100) with
  | none => cases (decode_unregistered hhalt hl).symm.trans h
  | some d => exact .inr ⟨d, rfl, (Except.ok.inj ((decode_of_lookup hl).symm.trans h)).symm⟩

/-- The decoder has two refusals: a negative word, and an opcode that is neither the halt sentinel nor in the table. -/
theorem decode_error_iff {w : Int} :
    (∃ e, decode w = .error e) ↔ w < 0 ∨ (w % 100 ≠ 99 ∧ lookup (w % 100).toNat = none) := by
  rcases lt_or_ge w 0 with hneg | hpos
  · exact iff_of_true ⟨_, decode_neg hneg⟩ (.inl hneg)
  obtain ⟨n, rfl⟩ := Int.eq_ofNat_of_zero_le hpos
  have hop : ((n : Int) % 100).toNat = n % 100 := by omega
  rw [hop]
  by_cases hhalt : n % 100 = 99
  · rw [decode_halt hhalt]
    exact iff_of_false nofun (by omega)
  cases hl : lookup (n % 100) with
  | none => exact iff_of_true ⟨_, decode_unregistered hhalt hl⟩ (.inr ⟨by omega, rfl⟩)
  | some d =>
    rw [decode_of_lookup hl]
    exact iff_of_false nofun (by simp)

/-! ### The encoder's digits -/

/-- The word of every instruction ends in its opcode. -/
theorem encodeNat_mod_hundred (i : Instr) : encodeNat i % 100 = i.opcode := by
  cases i with
  | add m0 m1 d x => exact (Laws.OpcodeDigits.add m0 m1 d x).2
  | mul m0 m1 d x => exact (Laws.OpcodeDigits.mul m0 m1 d x).2
  | inp d x => exact (Laws.OpcodeDigits.inp d x).2
  | out m0 x => exact (Laws.OpcodeDigits.out m0 x).2
  | halt x => exact (Laws.OpcodeDigits.halt x).2

/-- The encoder puts every field at the decimal place of its format. -/
theorem hasFieldsOf_encode (i : Instr) : i.hasFieldsOf (encode i) := by
  cases i <;> simp only [Instr.hasFieldsOf, encode, encodeNat] <;> omega

theorem digit_eq_iff {w k : Nat} {dg : Digit} : digit w k = dg ↔ w / 10 ^ k % 10 = dg.val := by
  rw [Fin.ext_iff, digit_val]

/-- An instruction other than HALT is what the format of its descriptor reads from its own word. -/
theorem fieldsOf_encodeNat {i : Instr} {d : Descriptor} (hl : lookup i.opcode = some d) :
    fieldsOf d.handler (encodeNat i) = i := by
  cases i with
  | add m0 m1 dg x =>
    cases hl
    simp only [addDescriptor, fieldsOf, encodeNat, Instr.add.injEq, digit_eq_iff]
    omega
  | mul m0 m1 dg x =>
    cases hl
    simp only [mulDescriptor, fieldsOf, encodeNat, Instr.mul.injEq, digit_eq_iff]
    omega
  | inp dg x =>
    cases hl
    simp only [inDescriptor, fieldsOf, encodeNat, Instr.inp.injEq, digit_eq_iff]
    omega
  | out m0 x =>
    cases hl
    simp only [outDescriptor, fieldsOf, encodeNat, Instr.out.injEq, digit_eq_iff]
    omega
  | halt x => cases hl

/-! ### The round trips -/

theorem decode_encode_of_lookup {i : Instr} {d : Descriptor} (hl : lookup i.opcode = some d) :
    decode (encode i) = .ok i := by
  rw [encode, decode_of_lookup (d := d) (by rw [encodeNat_mod_hundred, hl]), fieldsOf_encodeNat hl]

/-- Settles O1: HALT by the halt test, every other instruction by its descriptor's format. -/
theorem decodeOfEncode : Obligations.DecodeOfEncode := by
  intro i
  cases i with
  | add m0 m1 d x => exact decode_encode_of_lookup (d := addDescriptor) rfl
  | mul m0 m1 d x => exact decode_encode_of_lookup (d := mulDescriptor) rfl
  | inp d x => exact decode_encode_of_lookup (d := inDescriptor) rfl
  | out m0 x => exact decode_encode_of_lookup (d := outDescriptor) rfl
  | halt x =>
    rw [encode, decode_halt (encodeNat_mod_hundred (.halt x))]
    simp only [encodeNat, Except.ok.injEq, Instr.halt.injEq]
    omega

/-- Settles O2: the halt word is its two digits and those above, and any other word is made of its fields. -/
theorem encodeOfDecode : Obligations.EncodeOfDecode := by
  intro w i h
  obtain ⟨n, rfl, ⟨h99, rfl⟩ | ⟨d, hl, rfl⟩⟩ := decode_ok_cases h
  · simp only [encode, encodeNat]
    omega
  · exact Machine.encode_fieldsOf hl

/-- Settles O3: the word is the encoder's word of the instruction, whose fields stand at their places. -/
theorem fieldsAreDecimalDigits : Obligations.FieldsAreDecimalDigits := by
  intro w i _ h
  rw [← encodeOfDecode w i h]
  exact hasFieldsOf_encode i

/-- Settles O4: the table holds the opcodes 1 to 4 and the halt sentinel is 99. -/
theorem decoderRefusesExactly : Obligations.DecoderRefusesExactly := by
  intro w
  rw [decode_error_iff, lookup_none]
  omega

/-- Settles O5: each worked word is the encoder's word of the instruction it stands for. -/
theorem workedWordsDecode : Obligations.WorkedWordsDecode :=
  ⟨decodeOfEncode (.add 0 0 0 0), decodeOfEncode (.mul 0 0 0 0), decodeOfEncode (.mul 0 1 0 0),
    decodeOfEncode (.add 1 1 0 0), decodeOfEncode (.inp 0 0), decodeOfEncode (.out 0 0), decodeOfEncode (.out 1 0),
    decodeOfEncode (.halt 0)⟩

/-! ### The table and the assembler -/

/-- Settles O9: ISET is one constant of four descriptors. -/
theorem tableConstraintsHold : Obligations.TableConstraintsHold := by
  unfold Obligations.TableConstraintsHold
  decide

/-- Settles O10: the fields an assembled line leaves out of its word are those the encoder is given as 0. -/
theorem assembledLinesEncode : Obligations.AssembledLinesEncode := by
  refine ⟨fun s0 s1 d => ?_, fun s0 s1 d => ?_, fun d => rfl, fun s0 => ?_, rfl, fun _ _ _ _ => rfl, fun _ _ _ _ => rfl,
    fun _ _ => rfl, fun _ _ => rfl, fun _ => rfl⟩ <;>
    simp [assembleLine, encode, encodeNat]

end Sys2Proof
end

section
/-! PROOFS. The step as a whole (spec/40_step_cycle.md R110): that it answers from every Running state, that it is the
table-driven loop, and its two simplest cases. -/

namespace Sys2Proof.Machine

/-! ### Every Running state has a step -/

theorem attempt_answers {α : Type} (s : State) (x : Except Raise α) {k : α → Host.Outcome State Fault Refusal}
    (hk : ∀ v, ∃ t, k v = .next t) : ∃ t, attempt s x k = .next t := by
  cases x with
  | error r => exact ⟨_, rfl⟩
  | ok v => exact hk v

theorem arithmetic_answers (d : Descriptor) (op : Int → Int → Int) (w : Int) (m0 m1 dg : Digit) (s : State) :
    ∃ t, arithmetic d op w m0 m1 dg s = .next t :=
  attempt_answers s _ fun _ => attempt_answers s _ fun _ => attempt_answers s _ fun _ =>
    attempt_answers s _ fun _ => attempt_answers s _ fun _ => ⟨_, rfl⟩

/-- Every instruction answers a next state, in every state. -/
theorem exec_answers (i : Instr) (s : State) : ∃ t, exec i s = .next t := by
  cases i with
  | add m0 m1 d x => exact arithmetic_answers _ _ _ m0 m1 d s
  | mul m0 m1 d x => exact arithmetic_answers _ _ _ m0 m1 d s
  | inp d x =>
    exact attempt_answers s _ fun _ => attempt_answers s _ fun taken => attempt_answers taken.2 _ fun _ => ⟨_, rfl⟩
  | out m0 x => exact attempt_answers s _ fun _ => ⟨_, rfl⟩
  | halt x => exact ⟨_, rfl⟩

/-- No Running state is stuck. -/
theorem step_answers {s : State} (hrun : s.run = .running) : ∃ t, step s = .next t := by
  simp only [step, hrun]
  refine attempt_answers s _ fun w => ?_
  split
  next => exact ⟨_, rfl⟩
  next i _ => exact exec_answers i s

/-- Settles O17: from Running every instruction answers, and a step that answers started from Running. -/
theorem stepsExactlyWhileRunning : Obligations.StepsExactlyWhileRunning :=
  fun _ => ⟨fun ⟨_, h⟩ => (step_cases h).1, step_answers⟩

/-! ### A word that decodes and a negative word -/

/-- Settles O15: the fetch gives the word, and nothing else stands between the decoder and the instruction. -/
theorem stepRunsDecoded : Obligations.StepRunsDecoded :=
  fun _ _ => step_of_decode

/-- Settles O20: the decoder refuses a negative word before it looks at its digits. -/
theorem negativeWordsFault : Obligations.NegativeWordsFault :=
  fun _ hrun hpc hneg => step_of_decode_error hrun hpc (decode_neg hneg)

/-! ### The table-driven loop -/

/-- Lines 5 to 7 of R110 as the loop writes them. -/
theorem tableStep_of_lookup {s : State} {n : Nat} {d : Descriptor} (hrun : s.run = .running) (hpc : s.pc < s.mem.len)
    (hw : s.mem.get s.pc = n) (h99 : n % 100 ≠ 99) (hl : lookup (n % 100) = some d) :
    tableStep s =
      attempt s (resolveAll d n s d.parameterCount) fun p => finishHandler d (handle d.handler p (n : Int) s) := by
  have hr : memRead s.mem (s.pc : Int) = .ok (n : Int) := fetch_ok.2 ⟨hpc, hw.symm⟩
  have hpos : ¬ (n : Int) < 0 := by omega
  simp only [tableStep, hrun, hr, hpos, if_false, Int.toNat_natCast, haltOpcode, h99, hl]
  cases resolveAll d n s d.parameterCount with
  | error r => rfl
  | ok p => cases handle d.handler p (n : Int) s <;> rfl

/-- From Running the step is the loop, row by row of the partition of all words (spec/40_step_cycle.md R112). -/
theorem step_eq_tableStep_of_running {s : State} (hrun : s.run = .running) : step s = tableStep s := by
  rcases le_or_gt s.mem.len s.pc with hpc | hpc
  · have hr : memRead s.mem (s.pc : Int) = .error ⟨.outOfBounds, s.pc⟩ := fetch_error.2 ⟨hpc, rfl⟩
    rw [step_of_pc_outside hrun hpc]
    simp [tableStep, hrun, hr, takeFault_eq]
  have hr : memRead s.mem (s.pc : Int) = .ok (s.mem.get s.pc) := fetch_ok.2 ⟨hpc, rfl⟩
  rcases lt_or_ge (s.mem.get s.pc) 0 with hneg | hpos
  · rw [negativeWordsFault s hrun hpc hneg]
    simp [tableStep, hrun, hr, hneg, takeFault_eq]
  obtain ⟨n, hw⟩ := Int.eq_ofNat_of_zero_le hpos
  have hpos : ¬ (n : Int) < 0 := by omega
  by_cases h99 : n % 100 = 99
  · rw [step_of_halt_word hrun hpc hw h99]
    simp [tableStep, hrun, hr, hw, hpos, haltOpcode, h99, haltRun]
  cases hl : lookup (n % 100) with
  | none =>
    rw [step_of_unregistered_word hrun hpc hw h99 hl]
    simp [tableStep, hrun, hr, hw, hpos, haltOpcode, h99, hl, takeFault_eq]
  | some d => rw [step_of_lookup hrun hpc hw hl, tableStep_of_lookup hrun hpc hw h99 hl]

/-- Settles O16: no step from Halted and Faulted, and the rows of the partition of all words from Running. -/
theorem stepIsTheDispatchLoop : Obligations.StepIsTheDispatchLoop := by
  intro s
  cases hrun : s.run with
  | running => exact step_eq_tableStep_of_running hrun
  | halted => simp [step, tableStep, hrun]
  | faulted => simp [step, tableStep, hrun]

end Sys2Proof.Machine
end

section
/-! PROOFS. The invariant of the machine (`State.Inv`), operation by operation and then step by step; what a step never changes;
and that every run ends (spec/70_reset_and_hazards.md R214), so that the whole transaction has a result. -/

namespace Sys2Proof.Machine

/-! ### The invariant over each state operation -/

/-- A fault writes the record with the program counter and touches nothing the rest of the invariant speaks of. -/
theorem inv_takeFault {s : State} (r : Raise) (h : s.Inv) : (takeFault r s).Inv := by
  obtain ⟨hmem, hwords, hregs, -⟩ := h
  exact ⟨hmem, hwords, hregs, by simp, by simp, by simp⟩

theorem inv_moveCursor {s : State} (h : s.Inv) (hic : s.ic < s.inp.length) : (moveCursor s).Inv := by
  obtain ⟨hmem, hwords, ⟨hpc, -, hout⟩, hends⟩ := h
  exact ⟨hmem, hwords, ⟨hpc, hic, hout⟩, hends⟩

/-- A word of the width written inside the memory of a Running core keeps the invariant. -/
theorem inv_set {s : State} {a : Nat} {v : Int} (h : s.Inv) (hrun : s.run = .running) (ha : a < s.mem.len)
    (hv : s.width.fits v = true) : (setMem (s.mem.set a v) s).Inv := by
  obtain ⟨hmem, ⟨hw, hcells, hinp, hout⟩, hregs, hfault, hrec, -⟩ := h
  refine ⟨Memory.wf_set v hmem ha, ⟨hw, fun b hb => ?_, hinp, hout⟩, hregs, hfault, hrec, by simp [hrun]⟩
  by_cases hba : b = a
  · simpa [hba] using hv
  · simpa [Memory.get_set_other _ _ hba] using hcells b hb

/-- A Running core advanced to an address of memory or to LEN. -/
theorem inv_advance {s : State} {d : Descriptor} (h : s.Inv) (hrun : s.run = .running)
    (hpc : s.pc + (d.parameterCount + 1) ≤ s.mem.len) : (advance d s).Inv := by
  obtain ⟨hmem, hwords, ⟨-, hic, hout⟩, hfault, -, -⟩ := h
  have hnone : s.fault = none := by simpa [hrun] using hfault
  exact ⟨hmem, hwords, ⟨hpc, hic, by simp; omega⟩, hfault, by simp [hnone], by simp [hrun]⟩

/-- One value emitted and two cells passed: the bound on the output moves with the program counter (spec/10_state.md R38). -/
theorem inv_advance_emit {s : State} {v : Int} (h : s.Inv) (hrun : s.run = .running) (hpc : s.pc + 2 ≤ s.mem.len)
    (hv : s.width.fits v = true) : (advance outDescriptor (emit v s)).Inv := by
  obtain ⟨hmem, ⟨hw, hcells, hinp, hout⟩, ⟨-, hic, hlen⟩, hfault, -, -⟩ := h
  have hnone : s.fault = none := by simpa [hrun] using hfault
  refine ⟨hmem, ⟨hw, hcells, hinp, fun u hu => ?_⟩, ⟨hpc, hic, ?_⟩, hfault, by simp [hnone], by simp [hrun]⟩
  · rcases List.mem_append.1 hu with hu | hu
    · exact hout u hu
    · exact List.mem_singleton.1 hu ▸ hv
  · simp [outDescriptor]
    omega

/-- A Running core halts at a halt word. -/
theorem inv_haltRun {s : State} (h : s.Inv) (hrun : s.run = .running) (hpc : s.pc < s.mem.len)
    (hpos : 0 ≤ s.mem.get s.pc) (h99 : s.mem.get s.pc % 100 = 99) : (haltRun s).Inv := by
  obtain ⟨hmem, hwords, hregs, hfault, -, -⟩ := h
  have hnone : s.fault = none := by simpa [hrun] using hfault
  exact ⟨hmem, hwords, hregs, by simp [hnone], by simp [hnone], fun _ => ⟨hpc, hpos, h99⟩⟩

/-! ### The invariant over a step -/

/-- An operand is the content of a cell, so it is a word. -/
theorem SourceIs.fits {s : State} {i : Nat} {dg : Digit} {v : Int} (hw : s.wordsFit) (h : SourceIs s i dg v) :
    s.width.fits v = true := by
  obtain ⟨-, hcells, -, -⟩ := hw
  obtain ⟨hlen, ⟨-, rfl⟩ | ⟨-, hin, rfl⟩⟩ := h
  · exact hcells _ hlen
  · exact hcells _ (by rw [inRange_iff] at hin; omega)

/-- ADD and MUL keep the invariant. -/
theorem arithmetic_keeps_inv {d : Descriptor} {op : Int → Int → Int} {w : Int} {m0 m1 dg : Digit} {s t : State}
    (hd : d.writeParameterIndices = [2]) (hn : d.parameterCount = 3) (h : s.Inv) (hrun : s.run = .running)
    (ht : arithmetic d op w m0 m1 dg s = .next t) : t.Inv := by
  rcases arithmetic_cases hd ht with ⟨r, rfl⟩ | ⟨a, b, p, -, -, ⟨hlen, -⟩, hfits, hin, rfl⟩
  · exact inv_takeFault r h
  · rw [inRange_iff] at hin
    exact inv_advance (inv_set h hrun (by omega) hfits) hrun (by rw [hn]; exact hlen)

/-- IN keeps the invariant: the value it stores is a value of the input. -/
theorem exec_inp_keeps_inv {d : Digit} {x : Nat} {s t : State} (h : s.Inv) (hrun : s.run = .running)
    (ht : exec (.inp d x) s = .next t) : t.Inv := by
  rcases exec_inp_cases ht with ⟨r, rfl⟩ | ⟨p, v, -, hv, -, rfl⟩ | ⟨p, v, ⟨hlen, -⟩, hv, hin, rfl⟩
  · exact inv_takeFault r h
  · exact inv_takeFault _ (inv_moveCursor h (List.getElem?_eq_some_iff.1 hv).1)
  · have hmoved := inv_moveCursor h (List.getElem?_eq_some_iff.1 hv).1
    obtain ⟨-, ⟨-, -, hinp, -⟩, -, -⟩ := h
    rw [inRange_iff] at hin
    exact inv_advance (inv_set hmoved hrun (by simp; omega) (hinp v (List.mem_of_getElem? hv))) hrun hlen

/-- OUT keeps the invariant. -/
theorem exec_out_keeps_inv {m0 : Digit} {x : Nat} {s t : State} (h : s.Inv) (hrun : s.run = .running)
    (ht : exec (.out m0 x) s = .next t) : t.Inv := by
  rcases exec_out_cases ht with ⟨r, -, rfl⟩ | ⟨v, hv, rfl⟩
  · exact inv_takeFault r h
  · have ⟨_, hwords, _⟩ := h
    exact inv_advance_emit h hrun hv.1 (hv.fits hwords)

/-- The instruction a Running core's word decodes to keeps the invariant. -/
theorem exec_keeps_inv {i : Instr} {s t : State} (h : s.Inv) (hrun : s.run = .running) (hpc : s.pc < s.mem.len)
    (hi : decode (s.mem.get s.pc) = .ok i) (ht : exec i s = .next t) : t.Inv := by
  cases i with
  | add m0 m1 d x => exact arithmetic_keeps_inv rfl rfl h hrun ht
  | mul m0 m1 d x => exact arithmetic_keeps_inv rfl rfl h hrun ht
  | inp d x => exact exec_inp_keeps_inv h hrun ht
  | out m0 x => exact exec_out_keeps_inv h hrun ht
  | halt x =>
    obtain ⟨hpos, h99⟩ := decode_ok hi
    rw [exec_halt_cases ht]
    exact inv_haltRun h hrun hpc hpos h99

/-- Settles O27: a fault taken before an instruction runs keeps the invariant, and so does every instruction. -/
theorem stepKeepsInvariant : Obligations.StepKeepsInvariant := by
  intro s t h ht
  obtain ⟨hrun, ⟨-, rfl⟩ | ⟨-, -, rfl⟩ | ⟨hpc, i, hi, hx⟩⟩ := step_cases ht
  · exact inv_takeFault _ h
  · exact inv_takeFault _ h
  · exact exec_keeps_inv h hrun hpc hi hx

/-! ### The invariant after a reset -/

/-- Every cell of a program of words holds a word. -/
theorem Memory.ofList_get_fits {W : Width} {p : List Int} (hp : ∀ v ∈ p, W.fits v = true) {a : Nat}
    (ha : a < p.length) : W.fits ((Memory.ofList p).get a) = true :=
  hp _ (List.mem_of_getElem? (Memory.getElem?_eq_ofList_get ha))

/-- Settles O29: the memory is the program, and every other piece of state has its reset value. -/
theorem hostResetMeetsInvariant : Obligations.HostResetMeetsInvariant := by
  intro s t p inp ht
  obtain ⟨hw, hfits, rfl⟩ := hostReset_next.1 ht
  obtain ⟨hp, hi⟩ := List.forall_mem_append.1 hfits
  exact ⟨Memory.wf_ofList p, ⟨hw, fun _ => Memory.ofList_get_fits hp, hi, by simp⟩,
    ⟨Nat.zero_le _, Nat.zero_le _, le_rfl⟩, by simp, by simp, by simp⟩

/-- Settles O28: the reset state is what the reset event gives for the empty program and input. -/
theorem resetMeetsInvariant : Obligations.ResetMeetsInvariant :=
  hostResetMeetsInvariant State.reset State.reset [] [] (hostReset_next.2 ⟨by decide, by simp, rfl⟩)

/-! ### What a step never changes -/

/-- An instruction leaves the parameters of the run as they are. -/
theorem exec_run_parameters {i : Instr} {s t : State} (h : exec i s = .next t) :
    t.width = s.width ∧ t.mem.len = s.mem.len ∧ t.inp = s.inp := by
  cases i with
  | add m0 m1 d x => rcases exec_add_cases h with ⟨r, rfl⟩ | ⟨a, b, p, -, -, -, -, -, rfl⟩ <;> simp
  | mul m0 m1 d x => rcases exec_mul_cases h with ⟨r, rfl⟩ | ⟨a, b, p, -, -, -, -, -, rfl⟩ <;> simp
  | inp d x => rcases exec_inp_cases h with ⟨r, rfl⟩ | ⟨p, v, -, -, -, rfl⟩ | ⟨p, v, -, -, -, rfl⟩ <;> simp
  | out m0 x => rcases exec_out_cases h with ⟨r, -, rfl⟩ | ⟨v, -, rfl⟩ <;> simp
  | halt x => simp [exec_halt_cases h]

/-- Settles O32: a fault changes none of them, and no instruction does. -/
theorem runParametersNeverChange : Obligations.RunParametersNeverChange := by
  intro s t h
  rcases step_fault_or_exec h with ⟨r, rfl⟩ | ⟨i, -, hx⟩
  · simp
  · exact exec_run_parameters hx

/-! ### Every run ends -/

/-- An instruction of a Running core that goes on has passed two cells at least, all of them inside memory. -/
theorem exec_goes_on {i : Instr} {s t : State} (h : exec i s = .next t) (ht : t.run = .running) :
    s.pc + 2 ≤ t.pc ∧ t.pc ≤ s.mem.len := by
  cases i with
  | add m0 m1 d x =>
    rcases exec_add_cases h with ⟨r, rfl⟩ | ⟨a, b, p, -, -, ⟨hlen, -⟩, -, -, rfl⟩
    · simp at ht
    · exact ⟨by simp [addDescriptor], hlen⟩
  | mul m0 m1 d x =>
    rcases exec_mul_cases h with ⟨r, rfl⟩ | ⟨a, b, p, -, -, ⟨hlen, -⟩, -, -, rfl⟩
    · simp at ht
    · exact ⟨by simp [mulDescriptor], hlen⟩
  | inp d x =>
    rcases exec_inp_cases h with ⟨r, rfl⟩ | ⟨p, v, -, -, -, rfl⟩ | ⟨p, v, ⟨hlen, -⟩, -, -, rfl⟩
    · simp at ht
    · simp at ht
    · exact ⟨le_rfl, hlen⟩
  | out m0 x =>
    rcases exec_out_cases h with ⟨r, -, rfl⟩ | ⟨v, ⟨hlen, -⟩, rfl⟩
    · simp at ht
    · exact ⟨le_rfl, hlen⟩
  | halt x => simp [exec_halt_cases h] at ht

/-- A step that goes on has passed two cells at least, all of them inside memory. -/
theorem step_goes_on {s t : State} (h : step s = .next t) (ht : t.run = .running) :
    s.pc + 2 ≤ t.pc ∧ t.pc ≤ s.mem.len := by
  rcases step_fault_or_exec h with ⟨r, rfl⟩ | ⟨i, -, hx⟩
  · simp at ht
  · exact exec_goes_on hx ht

/-- The bound of R214: every step but the last one passes two cells of those ahead. -/
theorem runLoop_ends {k : Nat} {s : State} (hk : (s.mem.len - s.pc) / 2 < k) : (runLoop k s).run ≠ .running := by
  induction k generalizing s with
  | zero => omega
  | succ k ih =>
    by_cases hrun : s.run = .running
    · obtain ⟨t, h⟩ := step_answers hrun
      rw [runLoop_succ k h]
      by_cases ht : t.run = .running
      · obtain ⟨hpc, hle⟩ := step_goes_on h ht
        obtain ⟨-, hlen, -⟩ := runParametersNeverChange s t h
        exact ih (by omega)
      · rwa [runLoop_ended k ht]
    · rwa [runLoop_ended _ hrun]

/-- The loop is a run of at most as many steps. -/
theorem runLoop_eq_run (k : Nat) (s : State) : ∃ n ≤ k, Sys2Proof.core.run n s = .next (runLoop k s) := by
  induction k generalizing s with
  | zero => exact ⟨0, le_rfl, rfl⟩
  | succ k ih =>
    by_cases hrun : s.run = .running
    · obtain ⟨t, h⟩ := step_answers hrun
      obtain ⟨n, hn, hrun'⟩ := ih t
      exact ⟨n + 1, by omega, by rw [core_run_succ n h, hrun', runLoop_succ k h]⟩
    · exact ⟨0, by omega, by rw [runLoop_ended _ hrun]; rfl⟩

/-- Settles O26: the loop of that many steps has ended, and it is a run. -/
theorem everyRunEnds : Obligations.EveryRunEnds := by
  intro s _
  obtain ⟨n, hn, h⟩ := runLoop_eq_run ((s.mem.len - s.pc) / 2 + 1) s
  exact ⟨n, hn, _, h, runLoop_ends (Nat.lt_succ_self _)⟩

/-! ### The whole transaction -/

/-- What every step keeps, a loop of steps keeps. -/
theorem runLoop_keeps {P : State → Prop} (hP : ∀ s t, P s → step s = .next t → P t) (k : Nat) {s : State} (h : P s) :
    P (runLoop k s) := by
  induction k generalizing s with
  | zero => exact h
  | succ k ih =>
    cases hs : step s with
    | next t => exact runLoop_succ k hs ▸ ih (hP s t h hs)
    | fault r => simpa only [runLoop, hs] using h
    | refused r => simpa only [runLoop, hs] using h

theorem runLoop_mem_len (k : Nat) (s : State) : (runLoop k s).mem.len = s.mem.len :=
  runLoop_keeps (P := fun u => u.mem.len = s.mem.len)
    (fun u t hu h => let ⟨_, hlen, _⟩ := runParametersNeverChange u t h; hlen.trans hu) k rfl

/-- An ended state that meets the invariant gives the host its memory or its fault record. -/
theorem collect_of_ended {s : State} (h : s.Inv) (hrun : s.run ≠ .running) :
    collect s = .finished s.mem.toList s.out ∨ ∃ r, collect s = .failed r s.out := by
  obtain ⟨-, -, -, hfault, -, -⟩ := h
  cases hr : s.run with
  | running => exact absurd hr hrun
  | halted => exact .inl (collect_finished.2 ⟨hr, rfl, rfl⟩)
  | faulted =>
    obtain ⟨r, hrec⟩ := Option.isSome_iff_exists.1 (hfault.1 hr)
    exact .inr ⟨r, by simp [collect, hr, hrec]⟩

/-- Settles O33: the reset state meets the invariant, the loop keeps it and ends, and an ended state has a result. -/
theorem executeAlwaysAnswers : Obligations.ExecuteAlwaysAnswers := by
  intro s p inp hw hp hi
  obtain ⟨t, ht⟩ : ∃ t, hostReset s p inp = .next t :=
    ⟨_, hostReset_next.2 ⟨hw, List.forall_mem_append.2 ⟨hp, hi⟩, rfl⟩⟩
  obtain ⟨-, -, hreset⟩ := hostReset_next.1 ht
  have hlen : t.mem.len = p.length := by rw [hreset, Memory.ofList_len]
  have hinv : (runLoop (t.mem.len / 2 + 1) t).Inv :=
    runLoop_keeps stepKeepsInvariant _ (hostResetMeetsInvariant s t p inp ht)
  have hended : (runLoop (t.mem.len / 2 + 1) t).run ≠ .running := runLoop_ends (by omega)
  simp only [execute, ht]
  rcases collect_of_ended hinv hended with hfin | ⟨r, hfail⟩
  · exact .inl ⟨_, _, congrArg some hfin, by simp [Memory.toList, runLoop_mem_len, hlen]⟩
  · exact .inr ⟨r, _, congrArg some hfail⟩

end Sys2Proof.Machine
end

section
/-! PROOFS. What ADD, MUL, IN and HALT do (spec/41_arithmetic.md R131 to R133, spec/42_io.md R142, spec/43_halt.md R150): their
effect, their faults in order, and that the next fetch sees what they store (spec/20_memory.md R66). -/

namespace Sys2Proof.Machine

/-! ### ADD and MUL -/

section
variable {d : Descriptor} {op : Int → Int → Int} {w a b p : Int} {m0 m1 dg : Digit} {s : State}

/-- ADD and MUL once their three parameters are resolved. -/
theorem arithmetic_of_resolved (hd : d.writeParameterIndices = [2]) (ha : SourceIs s 0 m0 a) (hb : SourceIs s 1 m1 b)
    (hp : DestIs s 2 p) :
    arithmetic d op w m0 m1 dg s =
      attempt s (checkedResult s.width w (op a b)) fun r =>
        attempt s (memWrite s.mem p r) fun m => .next (advance d (setMem m s)) := by
  have h0 : resolveParam d s 0 m0 = .ok a := (resolveSource_ok (by simp [hd])).2 ha
  have h1 : resolveParam d s 1 m1 = .ok b := (resolveSource_ok (by simp [hd])).2 hb
  have h2 : resolveParam d s 2 dg = .ok p := (resolveDest_ok (by simp [hd])).2 hp
  simp only [arithmetic, h0, h1, h2, attempt_ok]

/-- ADD and MUL whose result is a word and whose destination is inside memory. -/
theorem arithmetic_of_result (hd : d.writeParameterIndices = [2]) (ha : SourceIs s 0 m0 a) (hb : SourceIs s 1 m1 b)
    (hp : DestIs s 2 p) (hf : s.width.fits (op a b) = true) (hin : s.mem.inRange p = true) :
    arithmetic d op w m0 m1 dg s = .next (advance d (setMem (s.mem.set p.toNat (op a b)) s)) := by
  rw [arithmetic_of_resolved hd ha hb hp, checkedResult_ok.2 ⟨hf, rfl⟩, attempt_ok, memWrite_ok.2 ⟨hin, rfl⟩, attempt_ok]

/-- ADD and MUL whose result is no word fault at the range test, whatever the destination. -/
theorem arithmetic_of_overflow (hd : d.writeParameterIndices = [2]) (ha : SourceIs s 0 m0 a) (hb : SourceIs s 1 m1 b)
    (hp : DestIs s 2 p) (hf : s.width.fits (op a b) = false) :
    arithmetic d op w m0 m1 dg s = .next (faultedAt s .overflow w) := by
  rw [arithmetic_of_resolved hd ha hb hp, checkedResult_error.2 ⟨hf, rfl⟩, attempt_error, takeFault_eq]

end

/-- Settles O34: the case of a result that is stored, with the sum. -/
theorem addStoresSum : Obligations.AddStoresSum :=
  fun _ _ _ _ _ _ _ _ => arithmetic_of_result rfl

/-- Settles O35: the same case, with the product. -/
theorem mulStoresProduct : Obligations.MulStoresProduct :=
  fun _ _ _ _ _ _ _ _ => arithmetic_of_result rfl

/-- Settles O39: the range test comes before the write. -/
theorem overflowFaults : Obligations.OverflowFaults :=
  fun _ _ _ _ _ _ _ _ ha hb hp => ⟨arithmetic_of_overflow rfl ha hb hp, arithmetic_of_overflow rfl ha hb hp⟩

/-- Settles O40: the write of a result that passed the range test. -/
theorem badDestinationFaults : Obligations.BadDestinationFaults :=
  fun _ _ _ _ _ _ _ _ ha hb hp hout =>
    ⟨fun hf => arithmetic_of_bad_destination rfl ha hb hp hf hout,
      fun hf => arithmetic_of_bad_destination rfl ha hb hp hf hout⟩

/-- ADD and MUL are one operation with two descriptors, functions and words. -/
theorem exec_add_or_mul {m0 m1 dg : Digit} {x : Nat} {s : State} {e : Host.Outcome State Fault Refusal}
    (he : e = exec (.add m0 m1 dg x) s ∨ e = exec (.mul m0 m1 dg x) s) :
    ∃ (d : Descriptor) (op : Int → Int → Int) (w : Int),
      d.writeParameterIndices = [2] ∧ e = arithmetic d op w m0 m1 dg s := by
  rcases he with rfl | rfl
  · exact ⟨addDescriptor, _, _, rfl, rfl⟩
  · exact ⟨mulDescriptor, _, _, rfl, rfl⟩

/-- Settles O58: the first parameter that does not resolve ends the step. -/
theorem arithmeticReadFaultsInOrder : Obligations.ArithmeticReadFaultsInOrder := by
  intro m0 m1 dg x s e he
  obtain ⟨d, op, w, hd, rfl⟩ := exec_add_or_mul he
  have hi0 : 0 ∉ d.writeParameterIndices := by simp [hd]
  have hi1 : 1 ∉ d.writeParameterIndices := by simp [hd]
  have hi2 : 2 ∈ d.writeParameterIndices := by simp [hd]
  refine ⟨fun h0 hlen => arithmetic_of_first_error (resolveParam_cell_outside hi0 h0 hlen),
    fun h0 hlen hout => arithmetic_of_first_error (resolveParam_target_outside hi0 h0 hlen hout), fun a ha => ?_⟩
  have hra := (resolveSource_ok hi0).2 ha
  refine ⟨fun h1 hlen => arithmetic_of_second_error hra (resolveParam_cell_outside hi1 h1 hlen),
    fun h1 hlen hout => arithmetic_of_second_error hra (resolveParam_target_outside hi1 h1 hlen hout), fun b hb hlen => ?_⟩
  exact arithmetic_of_third_error hra ((resolveSource_ok hi1).2 hb) ((resolveDest_error hi2).2 ⟨not_lt.2 hlen, rfl⟩)

/-! ### IN -/

/-- IN with a value at the cursor and its destination inside memory. -/
theorem exec_inp_of_input {s : State} {p v : Int} (d : Digit) (x : Nat) (hp : DestIs s 0 p) (hv : s.inp[s.ic]? = some v)
    (hin : s.mem.inRange p = true) :
    exec (.inp d x) s = .next (advance inDescriptor (setMem (s.mem.set p.toNat v) (moveCursor s))) := by
  have hr : resolveParam inDescriptor s 0 d = .ok p := (resolveDest_ok (by decide)).2 hp
  have hn : nextInput (encode (.inp d x)) s = .ok (v, moveCursor s) := nextInput_ok.2 ⟨hv, rfl⟩
  have hm : memWrite (moveCursor s).mem p v = .ok (s.mem.set p.toNat v) := memWrite_ok.2 ⟨hin, rfl⟩
  simp only [exec, execInp, hr, hn, attempt_ok, hm]

/-- IN that can read its parameter cell and finds no value at the cursor. -/
theorem exec_inp_of_exhausted {s : State} (d : Digit) (x : Nat) (hlen : s.pc + 1 < s.mem.len)
    (hic : s.inp.length ≤ s.ic) :
    exec (.inp d x) s = .next (faultedAt s .inputExhausted (encode (.inp d x))) := by
  have hr : resolveParam inDescriptor s 0 d = .ok (rawParam s 0) := (resolveDest_ok (by decide)).2 ⟨hlen, rfl⟩
  have hn : nextInput (encode (.inp d x)) s = .error ⟨.inputExhausted, encode (.inp d x)⟩ :=
    nextInput_error.2 ⟨hic, rfl⟩
  simp only [exec, execInp, hr, hn, attempt_ok, attempt_error, takeFault_eq]

/-- Settles O36: the case of IN that takes a value and stores it. -/
theorem inStoresNextInput : Obligations.InStoresNextInput :=
  fun d x _ _ _ => exec_inp_of_input d x

/-- Settles O41, fault by fault. -/
theorem inFaultsInOrder : Obligations.InFaultsInOrder :=
  fun d x _ => ⟨exec_inp_of_cell_outside d x, exec_inp_of_exhausted d x, fun _ => exec_inp_of_bad_destination d x⟩

/-! ### HALT -/

/-- Settles O38: HALT examines nothing and cannot fault. -/
theorem haltSetsHalted : Obligations.HaltSetsHalted :=
  fun _ _ => rfl

/-! ### The store and the next fetch -/

/-- A store at the address the advance leads to is fetched there. -/
theorem fetch_advance_set {d : Descriptor} {s : State} {n : Nat} (v : Int) (hn : s.pc + (d.parameterCount + 1) = n)
    (hlen : n < s.mem.len) : fetch (advance d (setMem (s.mem.set (n : Int).toNat v) s)) = .ok v := by
  subst hn
  exact fetch_ok.2 ⟨hlen, (s.mem.get_set_same _ v).symm⟩

/-- Settles O56: each of the three stores at the address its advance leads to. -/
theorem storeSeenByNextFetch : Obligations.StoreSeenByNextFetch := by
  refine ⟨fun m0 m1 d x s a b ha hb hp hlen => ?_, fun d x s v hp hlen hv => ?_⟩
  · have hin : s.mem.inRange ((s.pc + 4 : Nat) : Int) = true := inRange_nat.2 hlen
    exact ⟨fun hf => ⟨_, arithmetic_of_result rfl ha hb hp hf hin, fetch_advance_set _ rfl hlen⟩,
      fun hf => ⟨_, arithmetic_of_result rfl ha hb hp hf hin, fetch_advance_set _ rfl hlen⟩⟩
  · exact ⟨_, exec_inp_of_input d x hp hv (inRange_nat.2 hlen), fetch_advance_set (s := moveCursor s) v rfl hlen⟩

end Sys2Proof.Machine
end

section
/-! PROOFS. The causes of InvalidParameterMode, InputExhausted and Overflow (spec/60_exceptions.md R162 to R165), and what a fault
leaves (R177). -/

namespace Sys2Proof.Machine

/-! ### The one cause of each kind -/

/-- ADD and MUL reach a source parameter whose digit is no mode. -/
def ReachesBadMode (s : State) (m0 m1 : Digit) : Prop := 2 ≤ m0.val ∨ ((∃ a, SourceIs s 0 m0 a) ∧ 2 ≤ m1.val)

/-- The three parameters of an ADD or MUL resolve and the exact result is no word. -/
def ResultIsNoWord (s : State) (op : Int → Int → Int) (m0 m1 : Digit) : Prop :=
  ∃ a b p, SourceIs s 0 m0 a ∧ SourceIs s 1 m1 b ∧ DestIs s 2 p ∧ s.width.fits (op a b) = false

/-- What has to hold of an instruction that ends in a fault of a kind; nothing is asked of OutOfBounds here
(`exec_outOfBounds_cause` does). -/
def FaultCause (s : State) : FaultKind → Instr → Prop
  | .outOfBounds, _ => True
  | .invalidParameterMode, .add m0 m1 _ _ => ReachesBadMode s m0 m1
  | .invalidParameterMode, .mul m0 m1 _ _ => ReachesBadMode s m0 m1
  | .invalidParameterMode, .out m0 _ => 2 ≤ m0.val
  | .inputExhausted, .inp _ _ => s.pc + 1 < s.mem.len ∧ s.inp.length ≤ s.ic
  | .overflow, .add m0 m1 _ _ => ResultIsNoWord s (fun a b => a + b) m0 m1
  | .overflow, .mul m0 m1 _ _ => ResultIsNoWord s (fun a b => a * b) m0 m1
  | _, _ => False

section
variable {s t : State} {k : FaultKind}

/-- ADD and MUL end in OutOfBounds, in InvalidParameterMode for a bad digit reached, or in Overflow for a result that is no
word. -/
theorem arithmetic_fault_cause {d : Descriptor} {op : Int → Int → Int} {w : Int} {m0 m1 dg : Digit}
    (hd : d.writeParameterIndices = [2]) (h : arithmetic d op w m0 m1 dg s = .next t) (hrun : s.run = .running)
    (ht : t.endedBy k) :
    k = .outOfBounds ∨ (k = .invalidParameterMode ∧ ReachesBadMode s m0 m1) ∨
      (k = .overflow ∧ ResultIsNoWord s op m0 m1) := by
  rcases arithmetic_next hd h with ⟨r, hr, rfl⟩ | ⟨a, ha, ⟨r, hr, rfl⟩ | ⟨b, hb, ⟨r, hr, rfl⟩ |
    ⟨p, hp, ⟨hf, rfl⟩ | ⟨-, -, rfl⟩ | ⟨-, -, rfl⟩⟩⟩⟩
  · obtain rfl := endedBy_takeFault.1 ht
    rcases resolveSource_kind (by simp [hd]) hr with ⟨hm, hk⟩ | ⟨-, hk⟩
    · exact .inr (.inl ⟨hk, .inl hm⟩)
    · exact .inl hk
  · obtain rfl := endedBy_takeFault.1 ht
    rcases resolveSource_kind (by simp [hd]) hr with ⟨hm, hk⟩ | ⟨-, hk⟩
    · exact .inr (.inl ⟨hk, .inr ⟨⟨a, ha⟩, hm⟩⟩)
    · exact .inl hk
  · obtain rfl := endedBy_takeFault.1 ht
    obtain ⟨-, rfl⟩ := (resolveDest_error (by simp [hd])).1 hr
    exact .inl rfl
  · exact .inr (.inr ⟨(endedBy_takeFault.1 ht).symm, a, b, p, ha, hb, hp, hf⟩)
  · exact .inl (endedBy_takeFault.1 ht).symm
  · exact absurd ht (not_endedBy (by simp [hrun]))

/-- An instruction that ends in a fault has the cause of its kind. -/
theorem exec_fault_cause {i : Instr} (h : exec i s = .next t) (hrun : s.run = .running) (ht : t.endedBy k) :
    FaultCause s k i := by
  cases i with
  | add m0 m1 d x =>
    rcases arithmetic_fault_cause rfl h hrun ht with rfl | ⟨rfl, hc⟩ | ⟨rfl, hc⟩
    exacts [trivial, hc, hc]
  | mul m0 m1 d x =>
    rcases arithmetic_fault_cause rfl h hrun ht with rfl | ⟨rfl, hc⟩ | ⟨rfl, hc⟩
    exacts [trivial, hc, hc]
  | inp d x =>
    rcases exec_inp_next h with ⟨-, rfl⟩ | ⟨p, ⟨hlen, -⟩, ⟨hic, rfl⟩ | ⟨v, -, ⟨-, rfl⟩ | ⟨-, rfl⟩⟩⟩
    · obtain rfl := endedBy_takeFault.1 ht
      exact trivial
    · obtain rfl := endedBy_takeFault.1 ht
      exact ⟨hlen, hic⟩
    · obtain rfl := endedBy_takeFault.1 ht
      exact trivial
    · exact absurd ht (not_endedBy (by simp [hrun]))
  | out m0 x =>
    rcases exec_out_cases h with ⟨r, hr, rfl⟩ | ⟨v, -, rfl⟩
    · obtain rfl := endedBy_takeFault.1 ht
      rcases resolveSource_kind (by decide) hr with ⟨hm, hk⟩ | ⟨-, hk⟩
      · exact hk ▸ hm
      · exact hk ▸ trivial
    · exact absurd ht (not_endedBy (by simp [hrun]))
  | halt x =>
    rw [exec_halt_cases h] at ht
    exact absurd ht (not_endedBy (by simp))

/-- A step that ends in a fault other than OutOfBounds and UnknownOpcode is an instruction with the cause of that fault. -/
theorem step_fault_cause (h : step s = .next t) (ht : t.endedBy k) (hbounds : k ≠ .outOfBounds)
    (hop : k ≠ .unknownOpcode) : s.pc < s.mem.len ∧ ∃ i, decode (s.mem.get s.pc) = .ok i ∧ FaultCause s k i := by
  obtain ⟨hrun, ⟨-, rfl⟩ | ⟨-, -, rfl⟩ | ⟨hpc, i, hi, hx⟩⟩ := step_cases h
  · exact absurd (endedBy_takeFault.1 ht).symm hbounds
  · exact absurd (endedBy_takeFault.1 ht).symm hop
  · exact ⟨hpc, i, hi, exec_fault_cause hx hrun ht⟩

/-- The state a step is known to answer is the one it ends in. -/
theorem endedBy_of_next {o : Host.Outcome State Fault Refusal} {v : Int} (h : o = .next t)
    (hf : o = .next (faultedAt s k v)) : t.endedBy k := by
  obtain rfl := Host.Outcome.next.inj (h.symm.trans hf)
  exact endedBy_takeFault (r := ⟨k, v⟩).2 rfl

end

/-- Settles O43: the cause is found from the step's outcomes, and each cause ends the step. -/
theorem invalidModeCauses : Obligations.InvalidModeCauses := by
  intro s t h
  have hrun : s.run = .running := (step_cases h).1
  refine ⟨fun ht => ?_, ?_⟩
  · obtain ⟨hpc, i, hi, hc⟩ := step_fault_cause h ht nofun nofun
    refine ⟨hpc, ?_⟩
    cases i with
    | add m0 m1 d x => exact .inl ⟨m0, m1, d, x, .inl hi, hc⟩
    | mul m0 m1 d x => exact .inl ⟨m0, m1, d, x, .inr hi, hc⟩
    | inp d x => exact hc.elim
    | out m0 x => exact .inr ⟨m0, x, hi, hc⟩
    | halt x => exact hc.elim
  · rintro ⟨hpc, ⟨m0, m1, dg, x, hi, hc⟩ | ⟨m0, x, hi, hm⟩⟩
    · obtain ⟨d, op, w, hd, hstep, -⟩ := step_of_arithmetic_word hrun hpc hi
      rcases hc with hm | ⟨⟨a, ha⟩, hm⟩
      · exact endedBy_of_next h (hstep.trans (arithmetic_invalidMode_first hd hm))
      · exact endedBy_of_next h (hstep.trans (arithmetic_invalidMode_second hd ha hm))
    · exact endedBy_of_next h
        ((step_of_decode hrun hpc hi).trans (exec_out_of_error (resolveParam_invalidMode s (by decide) hm)))

/-- Settles O44: of the instructions only IN takes input, after its parameter cell is read. -/
theorem inputExhaustedCause : Obligations.InputExhaustedCause := by
  intro s t h
  have hrun : s.run = .running := (step_cases h).1
  refine ⟨fun ht => ?_, fun ⟨hlen, hic, d, x, hi⟩ => ?_⟩
  · obtain ⟨-, i, hi, hc⟩ := step_fault_cause h ht nofun nofun
    cases i with
    | inp d x => exact ⟨hc.1, hc.2, d, x, hi⟩
    | add m0 m1 d x => exact hc.elim
    | mul m0 m1 d x => exact hc.elim
    | out m0 x => exact hc.elim
    | halt x => exact hc.elim
  · exact endedBy_of_next h ((step_of_decode hrun (by omega) hi).trans (exec_inp_of_exhausted d x hlen hic))

/-- Settles O45: of the instructions only ADD and MUL have a result to test. -/
theorem overflowCause : Obligations.OverflowCause := by
  intro s t h
  have hrun : s.run = .running := (step_cases h).1
  refine ⟨fun ht => ?_, ?_⟩
  · obtain ⟨hpc, i, hi, hc⟩ := step_fault_cause h ht nofun nofun
    refine ⟨hpc, ?_⟩
    cases i with
    | add m0 m1 d x =>
      obtain ⟨a, b, p, ha, hb, hp, hf⟩ := hc
      exact ⟨m0, m1, d, x, a, b, p, ha, hb, hp, .inl ⟨hi, hf⟩⟩
    | mul m0 m1 d x =>
      obtain ⟨a, b, p, ha, hb, hp, hf⟩ := hc
      exact ⟨m0, m1, d, x, a, b, p, ha, hb, hp, .inr ⟨hi, hf⟩⟩
    | inp d x => exact hc.elim
    | out m0 x => exact hc.elim
    | halt x => exact hc.elim
  · rintro ⟨hpc, m0, m1, d, x, a, b, p, ha, hb, hp, ⟨hi, hf⟩ | ⟨hi, hf⟩⟩
    · exact endedBy_of_next h ((step_of_decode hrun hpc hi).trans ((overflowFaults m0 m1 d x s a b p ha hb hp).1 hf))
    · exact endedBy_of_next h ((step_of_decode hrun hpc hi).trans ((overflowFaults m0 m1 d x s a b p ha hb hp).2 hf))

/-! ### What a fault leaves -/

/-- An instruction of a Running core that faults does so in the state before it, or is an IN at its write. -/
theorem exec_fault_precise {i : Instr} {s t : State} (h : exec i s = .next t) (hrun : s.run = .running)
    (ht : t.run = .faulted) :
    (∃ r, t = takeFault r s) ∨
    (∃ d x p, i = .inp d x ∧ DestIs s 0 p ∧ s.mem.inRange p = false ∧ s.ic < s.inp.length ∧
      t = takeFault ⟨.outOfBounds, p⟩ (moveCursor s)) := by
  cases i with
  | add m0 m1 d x =>
    rcases exec_add_cases h with hr | ⟨a, b, p, -, -, -, -, -, rfl⟩
    · exact .inl hr
    · simp [hrun] at ht
  | mul m0 m1 d x =>
    rcases exec_mul_cases h with hr | ⟨a, b, p, -, -, -, -, -, rfl⟩
    · exact .inl hr
    · simp [hrun] at ht
  | inp d x =>
    rcases exec_inp_cases h with hr | ⟨p, v, hp, hv, hout, rfl⟩ | ⟨p, v, -, -, -, rfl⟩
    · exact .inl hr
    · exact .inr ⟨d, x, p, rfl, hp, hout, (List.getElem?_eq_some_iff.1 hv).1, rfl⟩
    · simp [hrun] at ht
  | out m0 x =>
    rcases exec_out_cases h with ⟨r, -, rfl⟩ | ⟨v, -, rfl⟩
    · exact .inl ⟨r, rfl⟩
    · simp [hrun] at ht
  | halt x => simp [exec_halt_cases h] at ht

/-- Settles O47: a fault before the instruction leaves the state as it is, and so does the instruction's but for IN's write. -/
theorem faultsArePrecise : Obligations.FaultsArePrecise := by
  intro s t h ht
  rcases step_fault_or_exec h with ⟨r, rfl⟩ | ⟨i, hi, hx⟩
  · exact .inl ⟨r.kind, r.value, rfl⟩
  rcases exec_fault_precise hx (step_cases h).1 ht with ⟨r, rfl⟩ | ⟨d, x, p, rfl, hp, hout, hic, rfl⟩
  · exact .inl ⟨r.kind, r.value, rfl⟩
  · exact .inr ⟨d, x, p, hi, hp, hout, hic, rfl⟩

end Sys2Proof.Machine
end

section
/-! PROOFS. The frames of the instructions: what each leaves unchanged (spec/41_arithmetic.md section 1, spec/42_io.md,
spec/43_halt.md). -/

namespace Sys2Proof.Machine

/-- A write at the address `p` leaves every cell at another address. -/
theorem Memory.get_set_elsewhere (m : Memory) {p : Int} {a : Nat} (v : Int) (h : (a : Int) ≠ p)
    (hin : m.inRange p = true) : (m.set p.toNat v).get a = m.get a := by
  rw [inRange_iff] at hin
  exact m.get_set_other v (by omega)

/-- The frame of ADD and MUL, with the destination as their meaning resolves it. -/
theorem arithmetic_frame {d : Descriptor} {op : Int → Int → Int} {w : Int} {m0 m1 dg : Digit} {s t : State}
    (hd : d.writeParameterIndices = [2]) (h : arithmetic d op w m0 m1 dg s = .next t) :
    t.width = s.width ∧ t.inp = s.inp ∧ t.ic = s.ic ∧ t.out = s.out ∧ t.mem.len = s.mem.len ∧
      (∀ p, DestIs s 2 p → ∀ a : Nat, (a : Int) ≠ p → t.mem.get a = s.mem.get a) ∧
      (¬ s.pc + 2 + 1 < s.mem.len → ∀ a, t.mem.get a = s.mem.get a) ∧
      ((t.run = s.run ∧ t.fault = s.fault) ∨ (t.run = .faulted ∧ t.mem = s.mem ∧ t.pc = s.pc)) := by
  rcases arithmetic_cases hd h with ⟨r, rfl⟩ | ⟨a, b, q, -, -, ⟨hlen, rfl⟩, -, hin, rfl⟩
  · simp
  · refine ⟨rfl, rfl, rfl, rfl, rfl, ?_, fun hout => absurd hlen hout, .inl ⟨rfl, rfl⟩⟩
    rintro p ⟨-, rfl⟩ c hc
    exact s.mem.get_set_elsewhere _ hc hin

/-- Settles O48: ADD and MUL resolve their destination alike, and the frame of the operation they share. -/
theorem arithmeticFrame : Obligations.ArithmeticFrame := by
  intro m0 m1 dg x s t h
  obtain ⟨d, op, w, hd, h⟩ : ∃ (d : Descriptor) (op : Int → Int → Int) (w : Int),
      d.writeParameterIndices = [2] ∧ .next t = arithmetic d op w m0 m1 dg s :=
    exec_add_or_mul (h.imp Eq.symm Eq.symm)
  obtain ⟨hw, hinp, hic, hout, hlen, hcells, hkept, hrun⟩ := arithmetic_frame hd h.symm
  exact ⟨hw, hinp, hic, hout, hlen, fun p hp => hcells p ((resolveDest_ok (by decide)).1 hp),
    fun e he => hkept ((resolveDest_error (by decide)).1 he).1, hrun⟩

/-- Settles O49: a fault of IN leaves memory, and its store is one write at the resolved destination. -/
theorem inFrame : Obligations.InFrame := by
  intro dg x s t h
  rcases exec_inp_cases h with ⟨r, rfl⟩ | ⟨q, v, -, -, -, rfl⟩ | ⟨q, v, ⟨hlen, rfl⟩, -, hin, rfl⟩
  · simp
  · simp
  · refine ⟨rfl, rfl, .inr rfl, rfl, rfl, fun p hp c hc => ?_, fun e he => ?_, .inl ⟨rfl, rfl⟩⟩
    · obtain ⟨-, rfl⟩ := (resolveDest_ok (by decide)).1 hp
      exact s.mem.get_set_elsewhere _ hc hin
    · exact absurd hlen ((resolveDest_error (by decide)).1 he).1

/-- Settles O50, by the two outcomes of OUT. -/
theorem outFrame : Obligations.OutFrame := by
  intro m0 x s t h
  rcases exec_out_cases h with ⟨r, -, rfl⟩ | ⟨v, -, rfl⟩ <;> simp

/-- Settles O51, by the one outcome of HALT. -/
theorem haltFrame : Obligations.HaltFrame := by
  intro x s t h
  simp [exec_halt_cases h]

end Sys2Proof.Machine
end

section
/-! PROOFS. What a step does not depend on: the output and the fault record (spec/10_state.md R27, R28, R35), and the digits that
are not examined (spec/30_encoding.md R101). Both follow from one description of an instruction run again with other ones. -/

namespace Sys2Proof

theorem Instr.sameExamined_self (i : Instr) : i.sameExamined i := by
  cases i <;> simp [Instr.sameExamined]

end Sys2Proof

namespace Sys2Proof.Machine

/-- The state with another output and another fault record. -/
def withRecords (o : List Int) (f : Option FaultRecord) (s : State) : State := { s with out := o, fault := f }

/-- The instruction takes a fault in a state with nothing more emitted, and run again from `s` with any output and fault record it
takes a fault of that kind there, the same one if `same` holds. -/
def FaultsAlike (same : Prop) (s t : State) (again : State → Host.Outcome State Fault Refusal) : Prop :=
  ∃ u r r', u.out = s.out ∧ t = takeFault r u ∧ r'.kind = r.kind ∧ (same → r' = r) ∧
    ∀ o f, again (withRecords o f s) = .next (takeFault r' (withRecords o f u))

/-- The instruction completes, and run again from `s` with any output and fault record it completes alike: the same values emitted
and the record left. -/
def CompletesAlike (s t : State) (again : State → Host.Outcome State Fault Refusal) : Prop :=
  ∃ e, t.out = s.out ++ e ∧ t.fault = s.fault ∧ (s.run = .running → t.run ≠ .faulted) ∧
    ∀ o f, again (withRecords o f s) = .next (withRecords (o ++ e) f t)

section
variable {s t : State}

/-- ADD and MUL run again, with any destination digit and any word to report. -/
theorem arithmetic_alike {d : Descriptor} {op : Int → Int → Int} {w : Int} {m0 m1 dg : Digit} (w' : Int) (dg' : Digit)
    (hd : d.writeParameterIndices = [2]) (h : arithmetic d op w m0 m1 dg s = .next t) :
    FaultsAlike (w' = w) s t (arithmetic d op w' m0 m1 dg') ∨ CompletesAlike s t (arithmetic d op w' m0 m1 dg') := by
  have source {i : Nat} {dg : Digit} {v : Int} (hi : i ≠ 2) : SourceIs s i dg v → resolveParam d s i dg = .ok v :=
    (resolveSource_ok (by simpa [hd] using hi)).2
  rcases arithmetic_next hd h with ⟨r, hr, rfl⟩ | ⟨a, ha, ⟨r, hr, rfl⟩ | ⟨b, hb, ⟨r, hr, rfl⟩ |
    ⟨p, hp, ⟨hf, rfl⟩ | ⟨hf, hout, rfl⟩ | ⟨hf, hin, rfl⟩⟩⟩⟩
  · exact .inl ⟨s, r, r, rfl, rfl, rfl, fun _ => rfl, fun o f => arithmetic_of_first_error hr⟩
  · exact .inl ⟨s, r, r, rfl, rfl, rfl, fun _ => rfl, fun o f => arithmetic_of_second_error (source (by decide) ha) hr⟩
  · have hr' : resolveParam d s 2 dg' = .error r := by
      rwa [resolveDest_error (by simp [hd])] at hr ⊢
    exact .inl ⟨s, r, r, rfl, rfl, rfl, fun _ => rfl,
      fun o f => arithmetic_of_third_error (source (by decide) ha) (source (by decide) hb) hr'⟩
  · exact .inl ⟨s, ⟨.overflow, w⟩, ⟨.overflow, w'⟩, rfl, rfl, rfl, fun hw => hw ▸ rfl,
      fun o f => arithmetic_of_overflow (s := withRecords o f s) hd ha hb hp hf⟩
  · exact .inl ⟨s, ⟨.outOfBounds, p⟩, ⟨.outOfBounds, p⟩, rfl, rfl, rfl, fun _ => rfl,
      fun o f => arithmetic_of_bad_destination (s := withRecords o f s) hd ha hb hp hf hout⟩
  · refine .inr ⟨[], by simp, rfl, fun hrun => by simp [hrun], fun o f => ?_⟩
    rw [List.append_nil]
    exact arithmetic_of_result (s := withRecords o f s) hd ha hb hp hf hin

/-- IN run again, with any digits. -/
theorem exec_inp_alike {d d' : Digit} {x x' : Nat} (h : exec (.inp d x) s = .next t) :
    FaultsAlike (Instr.inp d x = .inp d' x') s t (exec (.inp d' x')) ∨ CompletesAlike s t (exec (.inp d' x')) := by
  rcases exec_inp_next h with ⟨hlen, rfl⟩ | ⟨p, hp, ⟨hic, rfl⟩ | ⟨v, hv, ⟨hout, rfl⟩ | ⟨hin, rfl⟩⟩⟩
  · exact .inl ⟨s, _, _, rfl, rfl, rfl, fun _ => rfl,
      fun o f => exec_inp_of_cell_outside (s := withRecords o f s) d' x' hlen⟩
  · exact .inl ⟨s, _, ⟨.inputExhausted, encode (.inp d' x')⟩, rfl, rfl, rfl, fun hi => by rw [hi],
      fun o f => exec_inp_of_exhausted (s := withRecords o f s) d' x' hp.1 hic⟩
  · exact .inl ⟨moveCursor s, _, _, rfl, rfl, rfl, fun _ => rfl, fun o f =>
      exec_inp_of_bad_destination (s := withRecords o f s) d' x' hp (List.getElem?_eq_some_iff.1 hv).1 hout⟩
  · refine .inr ⟨[], by simp, rfl, fun hrun => by simp [hrun], fun o f => ?_⟩
    rw [List.append_nil]
    exact exec_inp_of_input (s := withRecords o f s) d' x' hp hv hin

/-- OUT run again, with any digits above its mode digit. -/
theorem exec_out_alike {same : Prop} {m0 : Digit} {x : Nat} (x' : Nat) (h : exec (.out m0 x) s = .next t) :
    FaultsAlike same s t (exec (.out m0 x')) ∨ CompletesAlike s t (exec (.out m0 x')) := by
  rcases exec_out_cases h with ⟨r, hr, rfl⟩ | ⟨v, hv, rfl⟩
  · exact .inl ⟨s, r, r, rfl, rfl, rfl, fun _ => rfl, fun o f => exec_out_of_error hr⟩
  · exact .inr ⟨[v], rfl, rfl, fun hrun => by simp [hrun], fun o f => exec_out_of_source (s := withRecords o f s) hv⟩

theorem FaultsAlike.mono {p q : Prop} {again : State → Host.Outcome State Fault Refusal} (h : FaultsAlike p s t again)
    (hqp : q → p) : FaultsAlike q s t again := by
  obtain ⟨u, r, r', hout, ht, hk, hsame, hagain⟩ := h
  exact ⟨u, r, r', hout, ht, hk, fun hq => hsame (hqp hq), hagain⟩

/-- An instruction run again with other digits that are not examined, another output and another fault record. -/
theorem exec_alike {i j : Instr} (hij : i.sameExamined j) (h : exec i s = .next t) :
    FaultsAlike (i = j) s t (exec j) ∨ CompletesAlike s t (exec j) := by
  match i, j, hij with
  | .add m0 m1 d x, .add _ _ d' x', ⟨rfl, rfl⟩ =>
    exact (arithmetic_alike (encode (.add m0 m1 d' x')) d' rfl h).imp_left fun hf => hf.mono fun hi => by rw [hi]
  | .mul m0 m1 d x, .mul _ _ d' x', ⟨rfl, rfl⟩ =>
    exact (arithmetic_alike (encode (.mul m0 m1 d' x')) d' rfl h).imp_left fun hf => hf.mono fun hi => by rw [hi]
  | .inp d x, .inp d' x', _ => exact exec_inp_alike h
  | .out m0 x, .out _ x', rfl => exact exec_out_alike x' h
  | .halt x, .halt x', _ =>
    rw [exec_halt_cases h]
    exact .inr ⟨[], by simp, rfl, by simp, fun o f => by rw [List.append_nil]; rfl⟩

/-- A step run again from a Running core with another output and another fault record. -/
theorem step_alike (h : step s = .next t) : FaultsAlike True s t step ∨ CompletesAlike s t step := by
  obtain ⟨hrun, ⟨hpc, rfl⟩ | ⟨hpc, ⟨e, he⟩, rfl⟩ | ⟨hpc, i, hi, hx⟩⟩ := step_cases h
  · exact .inl ⟨s, _, _, rfl, rfl, rfl, fun _ => rfl, fun o f => step_of_pc_outside (s := withRecords o f s) hrun hpc⟩
  · exact .inl ⟨s, _, _, rfl, rfl, rfl, fun _ => rfl,
      fun o f => step_of_decode_error (s := withRecords o f s) hrun hpc he⟩
  have hstep (o : List Int) (f : Option FaultRecord) : step (withRecords o f s) = exec i (withRecords o f s) :=
    step_of_decode (s := withRecords o f s) hrun hpc hi
  simpa only [FaultsAlike, CompletesAlike, hstep, forall_const] using exec_alike i.sameExamined_self hx

end

/-- Settles O54: the step run again writes the record where it faults, and appends the same values where it does not. -/
theorem outputIsNeverRead : Obligations.OutputIsNeverRead := by
  intro s t h
  rcases step_alike h with ⟨u, r, r', hout, rfl, -, hr, hagain⟩ | ⟨e, hout, -, hrun, hagain⟩
  · refine ⟨[], by simp [hout], fun o f => ?_⟩
    rw [List.append_nil, takeFault_run, if_pos rfl]
    exact hr trivial ▸ hagain o f
  · refine ⟨e, hout, fun o f => ?_⟩
    rw [if_neg (hrun (step_cases h).1)]
    exact hagain o f

/-- Settles O57: the instruction run again from the very state, with its own output and record. -/
theorem unexaminedDigitsIgnored : Obligations.UnexaminedDigitsIgnored := by
  intro i j s t hij h
  rcases exec_alike hij h with ⟨u, r, r', hout, rfl, hk, -, hagain⟩ | ⟨e, hout, hfault, -, hagain⟩
  · refine ⟨some ⟨r'.kind, u.pc, r'.value⟩, ?_, by simp, by simp [hk], by simp⟩
    have hu : withRecords s.out s.fault u = { u with fault := s.fault } := by rw [withRecords, hout]
    exact (hagain s.out s.fault).trans (by rw [hu]; rfl)
  · refine ⟨t.fault, ?_, fun _ => rfl, rfl, rfl⟩
    have ht : withRecords (s.out ++ e) s.fault t = t := by rw [withRecords, ← hout, ← hfault]
    exact (hagain s.out s.fault).trans (congrArg _ ht)

end Sys2Proof.Machine
end
